-- ==== Sys2Proof/Word.lean ====
section
/-! DEFINITION. The widths of the machine: bytes, words, 12-bit addresses, register and key numbers
(spec/00_scope.md R5, R7). -/

namespace Sys2Proof

/-- An 8-bit value: a memory cell, a general register, a timer, the immediate `kk` (R5, R71). -/
abbrev Byte := BitVec 8

/-- A 16-bit value: an opcode word, the program counter, the index register, a stack entry (R5). -/
abbrev Word := BitVec 16

/-- The 12-bit immediate `nnn` (R71). -/
abbrev Addr12 := BitVec 12

/-- The number of a general register, the fields `x` and `y` (R21, R71): 4 bits, so always in range. -/
abbrev Reg := Fin 16

/-- The code of a key, 0 to 15 (R36). -/
abbrev Key := Fin 16

end Sys2Proof
end

