-- ==== Sys2Proof/Config.lean ====
section
/-! DEFINITION. The parameters of the hardware (spec/00_scope.md R5) and the values the spec leaves open. -/

namespace Sys2Proof

/-- `VF_WRITE_ORDER` (R5, R143, D7): which of the two writes of `SUB`, `SHR`, `SUBN`, `SHL` comes last. -/
inductive VfWriteOrder where
  | asListed   -- the flag, then the result: the spec's own choice
  | flagLast   -- the result, then the flag: the alternative of D7
  deriving DecidableEq, Repr

/-- `DRW_VF_OPERAND` (R5, R166, D6): when `DRW` reads a coordinate that is named by register 15. -/
inductive DrwVfOperand where
  | sampled   -- once, before VF is cleared: the spec's own choice
  | live      -- again at every pixel, after VF has been cleared: the alternative of D6
  deriving DecidableEq, Repr

/-- `KEY_DELIVERY` (R5, R102, D15): when the environment may move. -/
inductive KeyDelivery where
  | stepBoundary    -- at every step-slot boundary: the spec's own choice
  | batchBoundary   -- only between two `Tick`s
  deriving DecidableEq, Repr

/-- The parameters of R5 that a rule uses. The model holds them in `State.params` (log 1), so every
statement about all states is a statement about all parameter values. -/
structure Params where
  /-- `STEPS_PER_TICK`: step slots in one cycle batch (R96, D26). -/
  stepsPerTick : Nat
  /-- `STACK_DEPTH`: `none` is the spec's `unbounded` (R27, R28, D13). -/
  stackDepth : Option Nat
  vfWriteOrder : VfWriteOrder
  drwVfOperand : DrwVfOperand
  keyDelivery : KeyDelivery
  deriving DecidableEq, Repr

/-- The defaults of R5. -/
def Params.default : Params :=
  { stepsPerTick := 10
    stackDepth := none
    vfWriteOrder := .asListed
    drwVfOperand := .sampled
    keyDelivery := .stepBoundary }

/-- FREE VALUE (R141, D17, U5; log 2): the byte the environment answers to the n-th `RandomByte()` of a
run. Nothing constrains it: a statement about `RND` holds for every byte drawn. -/
opaque Config.randomByte : Nat → Byte

/-- OPEN (R5, D16, U14; log 16): `TONE_HZ`, the frequency `ToneOn` carries. No rule uses its value. -/
opaque Config.toneHz : Nat

end Sys2Proof
end

