-- ==== Sys2Proof/Syntax.lean ====
section
/-! DEFINITION. The instructions: one constructor per row of spec/opcode_table.json, in the table's order
(spec/30_encoding.md R74). A word that matches no row is no instruction of its own (R75, R78) and has no
constructor: decoding refuses it by name and the step runs it as the no-operation of R75. -/

namespace Sys2Proof

/-- The 34 instructions of R74. Every field has the width of R71 as its type. -/
inductive Instr where
  | cls                                   -- 00E0  CLS
  | ret                                   -- 00EE  RET
  | jp (nnn : Addr12)                     -- 1nnn  JP nnn
  | call (nnn : Addr12)                   -- 2nnn  CALL nnn
  | seImm (x : Reg) (kk : Byte)           -- 3xkk  SE Vx, kk
  | sneImm (x : Reg) (kk : Byte)          -- 4xkk  SNE Vx, kk
  | seReg (x y : Reg)                     -- 5xy0  SE Vx, Vy
  | sneReg (x y : Reg)                    -- 9xy0  SNE Vx, Vy
  | ldImm (x : Reg) (kk : Byte)           -- 6xkk  LD Vx, kk
  | addImm (x : Reg) (kk : Byte)          -- 7xkk  ADD Vx, kk
  | ldReg (x y : Reg)                     -- 8xy0  LD Vx, Vy
  | or (x y : Reg)                        -- 8xy1  OR Vx, Vy
  | and (x y : Reg)                       -- 8xy2  AND Vx, Vy
  | xor (x y : Reg)                       -- 8xy3  XOR Vx, Vy
  | addReg (x y : Reg)                    -- 8xy4  ADD Vx, Vy
  | sub (x y : Reg)                       -- 8xy5  SUB Vx, Vy
  | shr (x y : Reg)                       -- 8xy6  SHR Vx with y encoded and ignored
  | subn (x y : Reg)                      -- 8xy7  SUBN Vx, Vy
  | shl (x y : Reg)                       -- 8xyE  SHL Vx with y encoded and ignored
  | ldI (nnn : Addr12)                    -- Annn  LD I, nnn
  | jpV0 (nnn : Addr12)                   -- Bnnn  JP V0, nnn
  | rnd (x : Reg) (kk : Byte)             -- Cxkk  RND Vx, kk
  | drw (x y : Reg) (n : BitVec 4)        -- Dxyn  DRW Vx, Vy, n
  | skp (x : Reg)                         -- Ex9E  SKP Vx
  | sknp (x : Reg)                        -- ExA1  SKNP Vx
  | ldVxDT (x : Reg)                      -- Fx07  LD Vx, DT
  | ldVxK (x : Reg)                       -- Fx0A  LD Vx, K
  | ldDTVx (x : Reg)                      -- Fx15  LD DT, Vx
  | ldSTVx (x : Reg)                      -- Fx18  LD ST, Vx
  | addI (x : Reg)                        -- Fx1E  ADD I, Vx
  | ldF (x : Reg)                         -- Fx29  LD F, Vx
  | ldB (x : Reg)                         -- Fx33  LD B, Vx
  | stRegs (x : Reg)                      -- Fx55  LD [I], Vx
  | ldRegs (x : Reg)                      -- Fx65  LD Vx, [I]
  deriving DecidableEq, Repr

end Sys2Proof
end

