-- ==== Sys2Proof/WellFormed.lean ====
section
/-! DEFINITION. Well-formedness of what comes from outside the machine: instructions, parameters, program
images. -/

namespace Sys2Proof

/-- Every term of `Instr` is a well-formed instruction: the field types are exactly the widths of R71, so the
ranges of R21 and R73 hold by type and there is no check left that a term could fail. -/
def Instr.wellFormed (_ : Instr) : Bool := true

/-- The one range R5 puts on a parameter: `STACK_DEPTH` is a number from 1 on, or `unbounded`. -/
def Params.wellFormed (p : Params) : Bool :=
  match p.stackDepth with
  | none => true
  | some depth => decide (1 ≤ depth)

/-- `MAX_PROGRAM` (R5): the bytes from 0x200 to 0xFFF. -/
def maxProgram : Nat := 3584

/-- The size check of a load (R201): at most 3584 bytes, the empty image included. -/
def imageFits (image : List Byte) : Bool := decide (image.length ≤ maxProgram)

end Sys2Proof
end

