-- ==== Sys2Proof/Machine/State.lean ====
section
/-! DEFINITION. The state of the machine: the core's architectural state (spec/10_state.md R20), the state of
its environment that the spec describes (R34), and the model's own fields. Plain data throughout. -/

namespace Sys2Proof.Machine

/-- Memory: (address, byte) pairs over the reset contents `Memory.unlisted`, in the canonical form
`Memory.wf` (R50; log 9). -/
abbrev Memory := List Host.Cell

/-- The frame buffer: 32 rows, top to bottom, of 64 one-bit pixels, left to right (R160). -/
abbrev Frame := Vector (Vector Bool 64) 32

/-- All pixels clear (R160, R162). -/
def Frame.clear : Frame := Vector.replicate 32 (Vector.replicate 64 false)

/-- The causes of the fault latch with their recorded values (R33, R180). -/
inductive Cause where
  /-- `RET` with an empty stack (R181). -/
  | stackUnderflow
  /-- An access above 0xFFF; `addr` is its lowest out-of-range byte address (R182). -/
  | memoryOutOfRange (addr : Nat)
  /-- `CALL` with a full stack of finite `STACK_DEPTH`; `value` could not be pushed (R183). -/
  | stackOverflow (value : Word)
  deriving DecidableEq, Repr

/-- What crosses the boundary of R35 from the core to its collaborators, and the answer to a `Load`. -/
inductive Request where
  /-- `SetPixel(x, y)`, with the coordinates the core hands over unreduced (R163). -/
  | setPixel (x y : Nat)
  /-- `ClearDisplay()` (R162). -/
  | clearDisplay
  /-- `Present()` (R99). -/
  | present
  /-- `ToneOn()`; it carries the constant `Config.toneHz` (R35, R98). -/
  | toneOn
  /-- `ToneOff()` (R98). -/
  | toneOff
  /-- The answer `ok` to a `Load` (R35). -/
  | loadOk
  /-- The answer `ProgramTooLarge` to a `Load`, with the image's length (R180, R184, R201). -/
  | programTooLarge (length : Nat)
  deriving DecidableEq, Repr

/-- The moves of the environment, and the core's own (R6, R36, R95, R102, R191; log 3, log 4). -/
inductive Move where
  /-- `Tick`: the environment invokes the core, which starts a cycle batch (R6, R35, R95). -/
  | tick
  /-- The core goes on with the running `Tick`, by one step slot or by the end of its batch; the place of a move of the
  environment between two step slots is said with it (R102; log 3). -/
  | core
  /-- `KeyDown(k)` (R36). -/
  | keyDown (k : Key)
  /-- `KeyUp(k)`, which delivers `KeyRelease(k)` (R36). -/
  | keyUp (k : Key)
  /-- `Load(bytes)` (R200). -/
  | load (image : List Byte)
  deriving DecidableEq, Repr

/-- The whole state. -/
structure State where
  /-- The 4096-byte memory (R50). -/
  mem : Memory
  /-- The general registers V0 to VF (R21); V[15] is the flag register VF (R22). -/
  v : Vector Byte 16
  /-- The index register `I` (R26). -/
  idx : Word
  /-- The program counter (R23). -/
  pc : Word
  /-- The call stack, newest entry first (R27; log 14). -/
  stack : List Word
  /-- The delay timer (R30). -/
  dt : Byte
  /-- The sound timer (R31). -/
  st : Byte
  /-- The wait state: `some r` is `key(r)` (R32). -/
  wait : Option Reg
  /-- The fault latch (R33). -/
  fault : Option Cause
  /-- The display collaborator's frame buffer (R160). -/
  fb : Frame
  /-- The surface the last `Present` flushed to (R37, R162; log 19). -/
  visible : Frame
  /-- The 16 key levels (R36). -/
  keys : Vector Bool 16
  /-- Whether the tone is sounding (R34, R98). -/
  tone : Bool
  /-- The parameters of R5 (log 1). -/
  params : Params
  /-- The `Tick` in flight: `none` between two `Tick`s, else the count of step slots already used in its batch
  (R34, R38, R95, R96; log 3). -/
  batch : Option Nat
  /-- The model's own: the moves to come; when empty, the core goes on with a `Tick` in flight (R102, R191; log 4). -/
  schedule : List Move
  /-- The model's own: how many random bytes have been drawn (R141; log 2). -/
  draws : Nat
  /-- The model's own: what has crossed the boundary of R35, newest first (log 16). -/
  requests : List Request
  deriving DecidableEq, Repr

/-- The machine right after reset, that is after a successful `Load` of the empty image (R39, R200 to R204):
no byte of memory differs from `Memory.unlisted`. -/
def State.reset : State :=
  { mem := []
    v := Vector.replicate 16 0x00#8
    idx := 0x0000#16
    pc := 0x0200#16
    stack := []
    dt := 0x00#8
    st := 0x00#8
    wait := none
    fault := none
    fb := Frame.clear
    visible := Frame.clear
    keys := Vector.replicate 16 false
    tone := false
    params := Params.default
    batch := none
    schedule := []
    draws := 0
    requests := [] }

/-- Reasons for which a step stops the model itself. The spec's own fatal conditions are not among them: they
are taken into the latch `State.fault`, and the machine goes on to a next state (R185). -/
inductive Fault where
  /-- Raised by the environment's move `KeyUp(k)` while `keys[k] = 0`, a move R36 does not allow. No
  instruction raises it. SAFE: the spec gives such a move no effect (log 6). -/
  | keyUpWithoutKeyDown (k : Key)
  deriving DecidableEq, Repr

/-- Reasons for which the model gives an instruction no meaning. -/
inductive Refusal where
  /-- Raised by an arm of `exec` whose instruction has no meaning yet; no arm does (log 31). SAFE: the run stops. -/
  | notModelled (mnemonic : String)
  deriving DecidableEq, Repr

/-- What a step answers. -/
abbrev Result := Host.Outcome State Fault Refusal

end Sys2Proof.Machine
end

