-- ==== Sys2Proof/Machine/Ops.lean ====
section
/-! DEFINITION. The named operations over memory, registers, program counter and stack (spec/00_scope.md R9),
taking a fault (spec/60_exceptions.md R185, R186) and completing an instruction. -/

namespace Sys2Proof.Machine

/-! ### Memory (R50 to R53) -/

/-- `MEM_SIZE` (R5). -/
def memSize : Nat := 4096

/-- `PROGRAM_BASE` (R5, R59). -/
def programBase : Nat := 0x200

/-- The 80 bytes of the font table (R58). Glyph 9 is the source's; the others are the spec's general
knowledge (G1; log 10). -/
def fontTable : List Byte :=
  [0xF0#8, 0x90#8, 0x90#8, 0x90#8, 0xF0#8, 0x20#8, 0x60#8, 0x20#8, 0x20#8, 0x70#8] ++
  [0xF0#8, 0x10#8, 0xF0#8, 0x80#8, 0xF0#8, 0xF0#8, 0x10#8, 0xF0#8, 0x10#8, 0xF0#8] ++
  [0x90#8, 0x90#8, 0xF0#8, 0x10#8, 0x10#8, 0xF0#8, 0x80#8, 0xF0#8, 0x10#8, 0xF0#8] ++
  [0xF0#8, 0x80#8, 0xF0#8, 0x90#8, 0xF0#8, 0xF0#8, 0x10#8, 0x20#8, 0x40#8, 0x40#8] ++
  [0xF0#8, 0x90#8, 0xF0#8, 0x90#8, 0xF0#8, 0xF0#8, 0x90#8, 0xF0#8, 0x10#8, 0xF0#8] ++
  [0xF0#8, 0x90#8, 0xF0#8, 0x90#8, 0x90#8, 0xE0#8, 0x90#8, 0xE0#8, 0x90#8, 0xE0#8] ++
  [0xF0#8, 0x80#8, 0x80#8, 0x80#8, 0xF0#8, 0xE0#8, 0x90#8, 0x90#8, 0x90#8, 0xE0#8] ++
  [0xF0#8, 0x80#8, 0xF0#8, 0x80#8, 0xF0#8, 0xF0#8, 0x80#8, 0xF0#8, 0x80#8, 0x80#8]

/-- What an unlisted address reads as: the reset contents, the font table from 0x000 and 0x00 elsewhere
(R58, R202, R203; log 9). -/
def Memory.unlisted (a : Nat) : Byte := fontTable.getD a 0x00#8

/-- The byte at an address, without the bounds check of R53. -/
def Memory.read : Memory → Nat → Byte
  | [], a => Memory.unlisted a
  | (k, c) :: rest, a => if a = k then c else Memory.read rest a

/-- Put an entry in front, unless the byte is what the unlisted address reads as. -/
def Memory.put (a : Nat) (b : Byte) (rest : Memory) : Memory :=
  if b = Memory.unlisted a then rest else (a, b) :: rest

/-- Store a byte at an address, keeping the canonical form; without the bounds check of R53. -/
def Memory.write : Memory → Nat → Byte → Memory
  | [], a, b => Memory.put a b []
  | (k, c) :: rest, a, b =>
    if a < k then Memory.put a b ((k, c) :: rest)
    else if a = k then Memory.put a b rest
    else (k, c) :: Memory.write rest a b

/-- The canonical form: addresses inside the address space, strictly rising, and no entry equal to what its
address reads as when unlisted. -/
def Memory.wf : Memory → Bool
  | [] => true
  | (k, c) :: rest =>
    decide (k < memSize) && decide (c ≠ Memory.unlisted k) && rest.all (fun e => decide (k < e.1)) &&
      Memory.wf rest

/-- `n` bytes from an address on, the lowest address first. -/
def Memory.readBytes (m : Memory) (a : Nat) : Nat → List Byte
  | 0 => []
  | n + 1 => Memory.read m a :: Memory.readBytes m (a + 1) n

/-- Store bytes from an address on, in order, the lowest address first. -/
def Memory.writeBytes (m : Memory) (a : Nat) : List Byte → Memory
  | [] => m
  | b :: bs => Memory.writeBytes (Memory.write m a b) (a + 1) bs

/-- The memory a successful load leaves: the font, the image from 0x200 on, 0x00 elsewhere (R202, R203). -/
def Memory.ofImage (image : List Byte) : Memory := Memory.writeBytes [] programBase image

/-- The addresses `base` to `base + len - 1` all lie inside 0 to 4095; no address, no access (R53, R165). -/
def inBounds (base len : Nat) : Bool := decide (len = 0) || decide (base + len ≤ memSize)

/-- The fault of an access of which some address is out of range: its lowest such address (R53, R182). -/
def outOfRange (base : Nat) : Cause := .memoryOutOfRange (max base memSize)

/-- Read `len` bytes from `base` on; all addresses are checked before any effect (R53, R156). -/
def State.memRead (s : State) (base len : Nat) : Except Cause (List Byte) :=
  if inBounds base len then .ok (Memory.readBytes s.mem base len) else .error (outOfRange base)

/-- Write bytes from `base` on; all addresses are checked before any effect (R53, R156). -/
def State.memWrite (s : State) (base : Nat) (bytes : List Byte) : Except Cause State :=
  if inBounds base bytes.length then .ok { s with mem := Memory.writeBytes s.mem base bytes }
  else .error (outOfRange base)

/-! ### Registers (R9, R21 to R26, R30, R31) -/

/-- The number of the flag register VF (R22). -/
def flagReg : Reg := 15

/-- `V[r]` (R9). -/
def State.reg (s : State) (r : Reg) : Byte := s.v[r.val]

/-- `V[r] <- b` (R9). -/
def State.setReg (s : State) (r : Reg) (b : Byte) : State := { s with v := s.v.set r.val b }

/-- `I <- w` (R9). -/
def State.setIdx (s : State) (w : Word) : State := { s with idx := w }

/-- `pc <- w` (R9). -/
def State.setPc (s : State) (w : Word) : State := { s with pc := w }

/-- `DT <- b` (R9). -/
def State.setDt (s : State) (b : Byte) : State := { s with dt := b }

/-- `ST <- b` (R9). -/
def State.setSt (s : State) (b : Byte) : State := { s with st := b }

/-- `wait <- key(r)` (R32, R173). -/
def State.waitForKey (s : State) (r : Reg) : State := { s with wait := some r }

/-- The advance of the program counter by 2 (R92); also what a taken skip adds (R24). -/
def State.advance (s : State) : State := { s with pc := s.pc + 2#16 }

/-- A skip: advance once more if the condition holds (R24, R118). -/
def State.skipIf (s : State) (condition : Bool) : State := if condition then s.advance else s

/-! ### The call stack (R28, R29) -/

/-- `Push(w)` (R28). -/
def State.push (s : State) (w : Word) : Except Cause State :=
  if s.params.stackDepth = some s.stack.length then .error (.stackOverflow w)
  else .ok { s with stack := w :: s.stack }

/-- `Pop()` (R29). -/
def State.pop (s : State) : Except Cause (Word × State) :=
  match s.stack with
  | [] => .error .stackUnderflow
  | w :: rest => .ok (w, { s with stack := rest })

/-! ### The random source (R141) -/

/-- `RandomByte()`: the next byte the environment answers, a free value (D17; log 2). -/
def State.drawByte (s : State) : Byte × State :=
  (Config.randomByte s.draws, { s with draws := s.draws + 1 })

/-! ### Faults (R180 to R188) -/

/-- The numeric code of the fault latch (R180, D9). -/
def faultCode (fault : Option Cause) : Nat :=
  match fault with
  | none => 0
  | some .stackUnderflow => 1
  | some (.memoryOutOfRange _) => 2
  | some (.stackOverflow _) => 3

/-- TAKING A FAULT: the latch is set and nothing else changes; there is no vector, no saved state and no mode
(R185). There is no return from it (R188): only a successful `Load` clears the latch (R204). -/
def State.raise (s : State) (c : Cause) : State := { s with fault := some c }

/-! ### Completing an instruction (R11, R90 to R93) -/

/-- An instruction that cannot fault: advance the program counter, then apply its effect (R92, R93). -/
def State.complete (s : State) (effect : State → State) : Result := .next (effect s.advance)

/-- An instruction that may fault: advance, then apply its effect; if the effect raises a fault, every change of
the step is undone, the program counter is back at the instruction, and the latch is set (R93, R186). -/
def State.attempt (s : State) (effect : State → Except Cause State) : Result :=
  match effect s.advance with
  | .ok t => .next t
  | .error c => .next (s.raise c)

end Sys2Proof.Machine
end

