-- ==== Sys2Proof/Machine/Operands.lean ====
section
/-! DEFINITION. The operand forms (spec/30_encoding.md R73, spec/43_index_memory.md R156): values, targets and
addresses the instructions compute from their fields and registers. -/

namespace Sys2Proof.Machine

/-- An absolute target or address `nnn`, unsigned (R73). -/
def absolute (nnn : Addr12) : Word := nnn.setWidth 16

/-- A byte as an unsigned 16-bit addend (R73). -/
def byteToWord (b : Byte) : Word := b.setWidth 16

/-- The target of `JP V0, nnn`: the sum, not reduced to 12 bits (R117, D30). -/
def offsetTarget (nnn : Addr12) (v0 : Byte) : Word := absolute nnn + byteToWord v0

/-- The address of the glyph of a byte: the whole byte times 5 (R152, D11). -/
def glyphAddress (b : Byte) : Word := BitVec.ofNat 16 (b.toNat * 5)

/-- The three decimal digits of a byte: hundreds, tens, ones (R153). -/
def bcdDigits (b : Byte) : List Byte :=
  [BitVec.ofNat 8 (b.toNat / 100), BitVec.ofNat 8 (b.toNat / 10 % 10), BitVec.ofNat 8 (b.toNat % 10)]

/-- The base address `I` as an unbounded integer: all 16 bits, never masked (R26, R156, D23). -/
def State.base (s : State) : Nat := s.idx.toNat

/-- The registers V0 to Vx, in order (R154). -/
def State.regsUpTo (s : State) (x : Reg) : List Byte := s.v.toList.take (x.val + 1)

/-- `V[k] <- bytes[k]` for every k the list has a byte for; the other registers keep their values (R155). -/
def State.loadRegs (s : State) (bytes : List Byte) : State :=
  { s with v := Vector.ofFn fun (k : Fin 16) => bytes.getD k.val s.v[k.val] }

/-- `KeyDownNow(b)`: the level of key `b`; no key has a code above 15, so such a key is not pressed (R174, D10). -/
def State.keyDownNow (s : State) (b : Byte) : Bool := s.keys.toList.getD b.toNat false

end Sys2Proof.Machine
end

