-- ==== Sys2Proof/Machine/Flags.lean ====
section
/-! DEFINITION. The flag computations (spec/10_state.md R22, spec/42_alu.md R133 to R143) and the order of the
two writes of a flag-writing instruction. -/

namespace Sys2Proof.Machine

/-- A flag as the byte VF receives. -/
def flagByte (b : Bool) : Byte := if b then 0x01#8 else 0x00#8

/-- The carry of a sum: the exact sum is above 255 (R136). -/
def carryFlag (a b : Byte) : Byte := flagByte (decide (a.toNat + b.toNat > 255))

/-- The flag of a difference `a - b`: `a` is strictly greater (R137, R139). -/
def greaterFlag (a b : Byte) : Byte := flagByte (decide (a.toNat > b.toNat))

/-- The bit `SHR` shifts out: bit 0 (R138). -/
def lowBitFlag (a : Byte) : Byte := flagByte (a.getLsbD 0)

/-- The bit `SHL` shifts out: bit 7 (R140). -/
def highBitFlag (a : Byte) : Byte := flagByte (a.getLsbD 7)

/-- The result first, then VF: the order of `OR`, `AND`, `XOR` and `ADD Vx, Vy` under either `VF_WRITE_ORDER`
(R133 to R136, R143). -/
def State.setResultThenFlag (s : State) (x : Reg) (result flag : Byte) : State :=
  (s.setReg x result).setReg flagReg flag

/-- VF first, then the result: the order R137 to R140 list. -/
def State.setFlagThenResult (s : State) (x : Reg) (result flag : Byte) : State :=
  (s.setReg flagReg flag).setReg x result

/-- The two writes of `SUB`, `SHR`, `SUBN`, `SHL`, in the order `VF_WRITE_ORDER` gives (R143, D7). -/
def State.setFlagAndResult (s : State) (x : Reg) (result flag : Byte) : State :=
  match s.params.vfWriteOrder with
  | .asListed => s.setFlagThenResult x result flag
  | .flagLast => s.setResultThenFlag x result flag

end Sys2Proof.Machine
end

