-- ==== Sys2Proof/Machine/Alu.lean ====
section
/-! DEFINITION. Register load, arithmetic, logic, shift and random instructions (spec/42_alu.md). Source registers
are read from the advanced state before any write (R144). -/

namespace Sys2Proof.Machine

/-- `LD Vx, kk` (R130). -/
def execLdImm (x : Reg) (kk : Byte) (s : State) : Result :=
  s.complete fun t => t.setReg x kk

/-- `ADD Vx, kk` (R131): wraps modulo 256, no flag. -/
def execAddImm (x : Reg) (kk : Byte) (s : State) : Result :=
  s.complete fun t => t.setReg x (t.reg x + kk)

/-- `LD Vx, Vy` (R132). -/
def execLdReg (x y : Reg) (s : State) : Result :=
  s.complete fun t => t.setReg x (t.reg y)

/-- `OR Vx, Vy` (R133). -/
def execOr (x y : Reg) (s : State) : Result :=
  s.complete fun t => t.setResultThenFlag x (t.reg x ||| t.reg y) 0x00#8

/-- `AND Vx, Vy` (R134). -/
def execAnd (x y : Reg) (s : State) : Result :=
  s.complete fun t => t.setResultThenFlag x (t.reg x &&& t.reg y) 0x00#8

/-- `XOR Vx, Vy` (R135). -/
def execXor (x y : Reg) (s : State) : Result :=
  s.complete fun t => t.setResultThenFlag x (t.reg x ^^^ t.reg y) 0x00#8

/-- `ADD Vx, Vy` (R136). -/
def execAddReg (x y : Reg) (s : State) : Result :=
  s.complete fun t => t.setResultThenFlag x (t.reg x + t.reg y) (carryFlag (t.reg x) (t.reg y))

/-- `SUB Vx, Vy` (R137). -/
def execSub (x y : Reg) (s : State) : Result :=
  s.complete fun t => t.setFlagAndResult x (t.reg x - t.reg y) (greaterFlag (t.reg x) (t.reg y))

/-- `SHR Vx` (R138); the field `y` has no effect. -/
def execShr (x _y : Reg) (s : State) : Result :=
  s.complete fun t => t.setFlagAndResult x (t.reg x >>> 1) (lowBitFlag (t.reg x))

/-- `SUBN Vx, Vy` (R139). -/
def execSubn (x y : Reg) (s : State) : Result :=
  s.complete fun t => t.setFlagAndResult x (t.reg y - t.reg x) (greaterFlag (t.reg y) (t.reg x))

/-- `SHL Vx` (R140); the field `y` has no effect. -/
def execShl (x _y : Reg) (s : State) : Result :=
  s.complete fun t => t.setFlagAndResult x (t.reg x <<< 1) (highBitFlag (t.reg x))

/-- `RND Vx, kk` (R141): one byte is drawn at every execution, also when `kk` is 0. -/
def execRnd (x : Reg) (kk : Byte) (s : State) : Result :=
  s.complete fun t => t.drawByte.2.setReg x (t.drawByte.1 &&& kk)

end Sys2Proof.Machine
end

