-- ==== Sys2Proof/Machine/Display.lean ====
section
/-! DEFINITION. The display collaborator's contract and the display instructions (spec/44_display.md). -/

namespace Sys2Proof.Machine

/-! ### The collaborator (R160 to R163) -/

/-- The pixel at a row and a column, both reduced as R161 reduces them. -/
def Frame.pixel (fb : Frame) (row col : Nat) : Bool :=
  (fb[row % 32]'(Nat.mod_lt _ (by decide)))[col % 64]'(Nat.mod_lt _ (by decide))

/-- Toggle the pixel at a row and a column, both reduced as R161 reduces them. -/
def Frame.toggle (fb : Frame) (row col : Nat) : Frame :=
  fb.set (row % 32)
    ((fb[row % 32]'(Nat.mod_lt _ (by decide))).set (col % 64) (!fb.pixel row col) (Nat.mod_lt _ (by decide)))
    (Nat.mod_lt _ (by decide))

/-- What `DRW` works on while it draws: the frame buffer, VF, and the requests it issues. -/
structure Canvas where
  fb : Frame
  vf : Byte
  requests : List Request
  deriving DecidableEq, Repr

/-- One pixel of a sprite: `if SetPixel(x, y) = 1 then V[15] <- 1` (R161, R165). -/
def Canvas.plot (c : Canvas) (x y : Nat) : Canvas :=
  { fb := c.fb.toggle y x
    vf := if c.fb.pixel y x then 0x01#8 else c.vf
    requests := .setPixel x y :: c.requests }

/-- One sprite row: its 1 bits, bit 7 leftmost (R165, R166, D5; log 11). The coordinates are functions of the
current VF because `DRW_VF_OPERAND = live` reads them again at every pixel (R166, D6; log 13). -/
def Canvas.plotRow (px py : Byte → Nat) (row : Nat) (b : Byte) (c : Canvas) : Canvas :=
  (List.range 8).foldl
    (fun d col => if b.getLsbD (7 - col) then d.plot (px d.vf + col) (py d.vf + row) else d) c

/-- The rows of a sprite, top to bottom (R165). -/
def Canvas.plotRows (px py : Byte → Nat) : Nat → List Byte → Canvas → Canvas
  | _, [], c => c
  | row, b :: bs, c => Canvas.plotRows px py (row + 1) bs (c.plotRow px py row b)

/-- A coordinate operand of `DRW` as a function of the current VF: constant, except that under
`DRW_VF_OPERAND = live` register 15 is the VF the drawing has written so far (R166, D6). -/
def State.coordinate (s : State) (r : Reg) (vf : Byte) : Nat :=
  match s.params.drwVfOperand with
  | .sampled => (s.reg r).toNat
  | .live => if r = flagReg then vf.toNat else (s.reg r).toNat

/-- Draw sprite rows at the coordinates of `x` and `y`, VF being set to 0 first (R165). -/
def State.drawSprite (s : State) (x y : Reg) (rows : List Byte) : State :=
  let c := Canvas.plotRows (s.coordinate x) (s.coordinate y) 0 rows
    { fb := s.fb, vf := 0x00#8, requests := s.requests }
  { s.setReg flagReg c.vf with fb := c.fb, requests := c.requests }

/-- `ClearDisplay()` (R162). -/
def State.clearDisplay (s : State) : State :=
  { s with fb := Frame.clear, requests := .clearDisplay :: s.requests }

/-! ### The instructions -/

/-- `CLS` (R164). -/
def execCls (s : State) : Result :=
  s.complete fun t => t.clearDisplay

/-- `DRW Vx, Vy, n` (R165, R166). -/
def execDrw (x y : Reg) (n : BitVec 4) (s : State) : Result :=
  s.attempt fun t => do
    let rows ← t.memRead t.base n.toNat
    pure (t.drawSprite x y rows)

end Sys2Proof.Machine
end

