-- ==== Sys2Proof/Machine/Flow.lean ====
section
/-! DEFINITION. Control transfer (spec/41_flow.md). In every meaning `s.pc` is the address A the word was fetched
from, and the effect runs on the advanced state, whose program counter is A + 2 (R24, R92). -/

namespace Sys2Proof.Machine

/-- `RET` (R110). -/
def execRet (s : State) : Result :=
  s.attempt fun t => do
    let (target, u) ← t.pop
    pure (u.setPc target)

/-- `JP nnn` (R111). -/
def execJp (nnn : Addr12) (s : State) : Result :=
  s.complete fun t => t.setPc (absolute nnn)

/-- `CALL nnn` (R112): the advanced program counter is pushed. -/
def execCall (nnn : Addr12) (s : State) : Result :=
  s.attempt fun t => do
    let u ← t.push t.pc
    pure (u.setPc (absolute nnn))

/-- `SE Vx, kk` (R113). -/
def execSeImm (x : Reg) (kk : Byte) (s : State) : Result :=
  s.complete fun t => t.skipIf (t.reg x == kk)

/-- `SNE Vx, kk` (R114). -/
def execSneImm (x : Reg) (kk : Byte) (s : State) : Result :=
  s.complete fun t => t.skipIf (t.reg x != kk)

/-- `SE Vx, Vy` (R115). -/
def execSeReg (x y : Reg) (s : State) : Result :=
  s.complete fun t => t.skipIf (t.reg x == t.reg y)

/-- `SNE Vx, Vy` (R116). -/
def execSneReg (x y : Reg) (s : State) : Result :=
  s.complete fun t => t.skipIf (t.reg x != t.reg y)

/-- `JP V0, nnn` (R117). -/
def execJpV0 (nnn : Addr12) (s : State) : Result :=
  s.complete fun t => t.setPc (offsetTarget nnn (t.reg 0))

end Sys2Proof.Machine
end

