-- ==== Sys2Proof/Machine/IndexMemory.lean ====
section
/-! DEFINITION. Index register and memory instructions (spec/43_index_memory.md). -/

namespace Sys2Proof.Machine

/-- `LD I, nnn` (R150). -/
def execLdI (nnn : Addr12) (s : State) : Result :=
  s.complete fun t => t.setIdx (absolute nnn)

/-- `ADD I, Vx` (R151): wraps modulo 65536, no flag. -/
def execAddI (x : Reg) (s : State) : Result :=
  s.complete fun t => t.setIdx (t.idx + byteToWord (t.reg x))

/-- `LD F, Vx` (R152). -/
def execLdF (x : Reg) (s : State) : Result :=
  s.complete fun t => t.setIdx (glyphAddress (t.reg x))

/-- `LD B, Vx` (R153). -/
def execLdB (x : Reg) (s : State) : Result :=
  s.attempt fun t => t.memWrite t.base (bcdDigits (t.reg x))

/-- `LD [I], Vx` (R154). -/
def execStRegs (x : Reg) (s : State) : Result :=
  s.attempt fun t => t.memWrite t.base (t.regsUpTo x)

/-- `LD Vx, [I]` (R155). -/
def execLdRegs (x : Reg) (s : State) : Result :=
  s.attempt fun t => do
    let bytes ← t.memRead t.base (x.val + 1)
    pure (t.loadRegs bytes)

end Sys2Proof.Machine
end

