-- ==== Sys2Proof/Machine/KeysTimers.lean ====
section
/-! DEFINITION. Keyboard and timer instructions (spec/45_keys_timers.md). -/

namespace Sys2Proof.Machine

/-- `SKP Vx` (R170). -/
def execSkp (x : Reg) (s : State) : Result :=
  s.complete fun t => t.skipIf (t.keyDownNow (t.reg x))

/-- `SKNP Vx` (R171). -/
def execSknp (x : Reg) (s : State) : Result :=
  s.complete fun t => t.skipIf (!t.keyDownNow (t.reg x))

/-- `LD Vx, DT` (R172). -/
def execLdVxDT (x : Reg) (s : State) : Result :=
  s.complete fun t => t.setReg x t.dt

/-- `LD Vx, K` (R173): enter the wait; the register is loaded by the key-release event (R101). -/
def execLdVxK (x : Reg) (s : State) : Result :=
  s.complete fun t => t.waitForKey x

/-- `LD DT, Vx` (R175). -/
def execLdDTVx (x : Reg) (s : State) : Result :=
  s.complete fun t => t.setDt (t.reg x)

/-- `LD ST, Vx` (R176): no tone request is made here. -/
def execLdSTVx (x : Reg) (s : State) : Result :=
  s.complete fun t => t.setSt (t.reg x)

end Sys2Proof.Machine
end

