-- ==== Sys2Proof/Machine/Environment.lean ====
section
/-! DEFINITION. The environment's events: key moves and the key release (spec/10_state.md R36,
spec/40_execution_cycle.md R101), and the load, which is the machine's only reset (spec/70_reset_and_hazards.md
R200 to R204). -/

namespace Sys2Proof.Machine

/-- `KeyDown(k)`: `keys[k] <- 1` (R36). -/
def State.keyDown (s : State) (k : Key) : State := { s with keys := s.keys.set k.val true }

/-- The code of a key as the byte a register receives (R101). -/
def keyCode (k : Key) : Byte := BitVec.ofNat 8 k.val

/-- `KeyRelease(k)`: it ends a pending wait, once, and has no effect otherwise or while a fault is latched
(R101, R104, D27). -/
def State.keyRelease (s : State) (k : Key) : State :=
  match s.fault, s.wait with
  | none, some r => { s.setReg r (keyCode k) with wait := none }
  | _, _ => s

/-- `KeyUp(k)`, allowed only when `keys[k] = 1`: `keys[k] <- 0`, then `KeyRelease(k)` (R36; log 6). -/
def State.keyUp (s : State) (k : Key) : Result :=
  if s.keys[k.val] then .next (State.keyRelease { s with keys := s.keys.set k.val false } k)
  else .fault (.keyUpWithoutKeyDown k)

/-- The state after a successful load: everything the core owns as at reset, with the image at 0x200, the display
clear and the tone silent; the key levels, the parameters and the model's record of the environment are not the
core's and stay (R39, R200 to R204, D22, D32; log 5, log 22). -/
def State.loaded (s : State) (image : List Byte) : State :=
  { State.reset with
    mem := Memory.ofImage image
    keys := s.keys
    params := s.params
    schedule := s.schedule
    draws := s.draws
    requests := .loadOk :: s.requests }

/-- `Load(bytes)`: an image that is too large is answered `ProgramTooLarge` and changes nothing (R201, D32). -/
def State.load (s : State) (image : List Byte) : State :=
  if imageFits image then s.loaded image
  else { s with requests := .programTooLarge image.length :: s.requests }

end Sys2Proof.Machine
end

