-- ==== Sys2Proof/Machine/Cycle.lean ====
section
/-! DEFINITION. Fetch, the instruction step, the `Tick` with its step slots and the end of its cycle batch, and the choice
of who moves next (spec/40_execution_cycle.md). One step of the model is one move of the environment, a `Tick` among them,
or one step slot or the end of the batch of the `Tick` in flight (log 3). -/

namespace Sys2Proof.Machine

/-! ### The instruction step (R90 to R93) -/

/-- Fetch: the two bytes at the program counter, big-endian (R55, R91). -/
def State.fetch (s : State) : Except Cause Word :=
  if inBounds s.pc.toNat 2 then
    .ok (wordOfBytes (Memory.read s.mem s.pc.toNat) (Memory.read s.mem (s.pc.toNat + 1)))
  else .error (outOfRange s.pc.toNat)

/-- A word that is no instruction: only the program counter moves (R75, R92). -/
def execNop (s : State) : Result := s.complete id

/-- `execute(decode(op))`, the advance included (R92, R93). -/
def runWord (op : Word) (s : State) : Result :=
  match decodeWord op with
  | some i => exec i s
  | none => execNop s

/-- `Step()` of R93; a fault of the fetch leaves the program counter where it is (R91, R186). -/
def instructionStep (s : State) : Result :=
  match s.fetch with
  | .ok op => runWord op s
  | .error c => .next (s.raise c)

/-! ### The cycle batch (R95 to R100) -/

/-- One step slot: an instruction step, or nothing while the core waits for a key (R96, R103). -/
def stepSlot (s : State) : Result :=
  match s.wait with
  | none => instructionStep s
  | some _ => .next s

/-- Apply a function to a next state, and pass a fault or a refusal on. -/
def mapNext (f : State → State) : Result → Result
  | .next t => .next (f t)
  | .fault r => .fault r
  | .refused r => .refused r

/-- The slot is used; a fault ends the whole `Tick` at once (R96, R100). -/
def State.closeSlot (s : State) : State :=
  match s.fault with
  | none => { s with batch := s.batch.map (· + 1) }
  | some _ => { s with batch := none }

/-- A timer, one batch later: down by one, never below 0 (R97). -/
def decay (b : Byte) : Byte := if b = 0x00#8 then 0x00#8 else b - 0x01#8

/-- Both timers decay (R97). -/
def State.decayTimers (s : State) : State := { s with dt := decay s.dt, st := decay s.st }

/-- The tone request of a batch, from the decayed sound timer (R98). -/
def State.requestTone (s : State) : State :=
  if s.st = 0x00#8 then { s with tone := false, requests := .toneOff :: s.requests }
  else { s with tone := true, requests := .toneOn :: s.requests }

/-- `Present()`: the pixels are flushed to the visible surface; the frame buffer does not change (R99, R162). -/
def State.present (s : State) : State :=
  { s with visible := s.fb, requests := .present :: s.requests }

/-- The end of a batch: timer decay, tone request, `Present` (R95, R97 to R99). -/
def State.endBatch (s : State) : State := s.decayTimers.requestTone.present

/-- The end of a batch as a step of the model: the `Tick` in flight is over. -/
def State.closeBatch (s : State) : State := { s.endBatch with batch := none }

/-- A `Tick` reaches the core: its batch starts with no slot used, and it has no effect while a fault is latched
(R95, R104). -/
def State.startTick (s : State) : State :=
  match s.fault with
  | none => { s with batch := some 0 }
  | some _ => s

/-- The core's next step: of a `Tick` in flight, a step slot, or the end of the batch when all its slots are used (R95,
R96); nothing when no `Tick` is in flight, since a `Tick` is the only way the core advances (R95, R211), or while a fault
is latched (R104). -/
def coreStep (s : State) : Result :=
  match s.fault, s.batch with
  | none, some used =>
    if used < s.params.stepsPerTick then mapNext State.closeSlot (stepSlot s) else .next s.closeBatch
  | none, none => .next s
  | some _, _ => .next s

/-- The remaining step slots of a `Tick` and then its end, with no move of the environment between them; a fault
ends the `Tick` at once (R95, R100). -/
def runSlots : Nat → State → Result
  | 0, s => .next s.endBatch
  | n + 1, s =>
    match stepSlot s with
    | .next t =>
      match t.fault with
      | none => runSlots n t
      | some _ => .next t
    | .fault r => .fault r
    | .refused r => .refused r

/-- `Tick()` of R95 as one event, for an environment that does not move inside it. -/
def tick (s : State) : Result :=
  match s.fault with
  | some _ => .next s
  | none => runSlots s.params.stepsPerTick s

/-! ### Who moves next (R102, R191) -/

/-- A key move or a load may land here: at every step-slot boundary, or only between two `Tick`s (R102, D15; log 5). -/
def State.admitsEvents (s : State) : Bool :=
  decide (s.params.keyDelivery = .stepBoundary) || decide (s.batch = none)

/-- Whether a move may land here; a `Tick` may only when none is in flight (R38, R208). -/
def State.admits (s : State) (m : Move) : Bool :=
  match m with
  | .core => true
  | .tick => decide (s.batch = none)
  | .keyDown _ | .keyUp _ | .load _ => s.admitsEvents

/-- One move of the core or of the environment. -/
def applyMove (m : Move) (s : State) : Result :=
  match m with
  | .core => coreStep s
  | .tick => .next s.startTick
  | .keyDown k => .next (s.keyDown k)
  | .keyUp k => s.keyUp k
  | .load image => .next (s.load image)

/-- The next move of the schedule; a move of the environment that may not land here waits while the core goes on with
its `Tick`, and with an empty schedule the core goes on (R102; log 4, log 28). -/
def nextStep (s : State) : Result :=
  match s.schedule with
  | [] => coreStep s
  | m :: rest =>
    if s.admits m then applyMove m { s with schedule := rest } else coreStep s

/-! ### Placing one word for the host -/

/-- `s` with the word's two bytes where the next step fetches, inside a `Tick` that has a step slot left, and with
everything else that keeps the next step from being an instruction step out of the way (log 26). -/
def State.placeWord (s : State) (op : Word) : State :=
  let pc := if inBounds s.pc.toNat 2 then s.pc else 0x0200#16
  { s with
    mem := Memory.writeBytes s.mem pc.toNat (bytesOfWord op)
    pc := pc
    wait := none
    fault := none
    schedule := []
    params := { s.params with stepsPerTick := max 1 s.params.stepsPerTick }
    batch :=
      match s.batch with
      | some used => if used < s.params.stepsPerTick then some used else some 0
      | none => some 0 }

end Sys2Proof.Machine
end

