-- ==== Sys2Proof/Machine/Step.lean ====
section
/-! DEFINITION. One step of the machine, and the host's placement of one instruction. -/

namespace Sys2Proof.Machine

/-- One step: the move the schedule gives, or the core's (spec/40_execution_cycle.md R95, R102). -/
def step : State → Host.Outcome State Fault Refusal := nextStep

/-- `s` with one opcode word stored where `step` fetches its next instruction; `w` is numbered as
spec/opcode_table.json numbers bits, and its bits above `nbits` are 0 (log 26). -/
def State.withFetchWord (s : State) (nbits w : Nat) : State :=
  s.placeWord (BitVec.ofNat 16 (w % 2 ^ nbits))

end Sys2Proof.Machine
end

