-- ==== Sys2Proof/Safety.lean ====
section
/-! DEFINITION. What claims about runs are stated in: where the core stands, what a good state is, and what each
instruction may write (spec/10_state.md R22, R24, R25, R41, spec/70_reset_and_hazards.md R212). -/

namespace Sys2Proof.Machine

/-- A move that is due has to wait for the end of the `Tick` in flight: a `Tick`, which cannot start inside a `Tick` (R38,
R208), and any other move of the environment under `KEY_DELIVERY = batch_boundary` (R102; log 28). -/
def State.Defers (s : State) (m : Move) : Prop :=
  s.batch ≠ none ∧ (m = .tick ∨ (m ≠ .core ∧ s.params.keyDelivery = .batchBoundary))

/-- The core is the next to move, and its step leaves the schedule `rest`: no move is scheduled, or the core's own move is
due and is taken off, or the move due has to wait and stays (R102; log 4, log 28). -/
def State.CoreIsNext (s : State) (rest : List Move) : Prop :=
  (s.schedule = [] ∧ rest = []) ∨ s.schedule = .core :: rest ∨
    ∃ m later, s.schedule = m :: later ∧ s.Defers m ∧ rest = m :: later

/-- The core is the next to move, whatever is scheduled behind its move, and stands at a step slot of the `Tick` in flight,
with so many slots of its batch used and no fault latched (R95, R96); its step leaves the schedule `rest`. -/
def State.AtSlot (s : State) (used : Nat) (rest : List Move) : Prop :=
  s.CoreIsNext rest ∧ s.fault = none ∧ s.batch = some used ∧ used < s.params.stepsPerTick

/-- The core is the next to move, whatever is scheduled behind its move, and all the slots of the `Tick` in flight are used,
with no fault latched (R95); its step leaves the schedule `rest`. -/
def State.AtBatchEnd (s : State) (rest : List Move) : Prop :=
  s.CoreIsNext rest ∧ s.fault = none ∧ ∃ used, s.batch = some used ∧ s.params.stepsPerTick ≤ used

/-- The two bytes the next fetch reads, the lower address first (R55, R91). -/
def State.fetchBytes (s : State) : List Byte := Memory.readBytes s.mem s.pc.toNat 2

/-- What every run keeps. The program counter never passes 0x10FE and no return address passes 0x1000, so the
16-bit wrap of the advance is never reached (R25); the stack is no deeper than `STACK_DEPTH` (R28); a core that has
faulted is not waiting for a key, since nothing executes in a wait (R103, R185), and has no `Tick` in flight, since a
fault ends it (R100); a `Tick` in flight has used no more slots than it has (R96). -/
structure State.Inv (s : State) : Prop where
  memory : Memory.wf s.mem = true
  pcBound : s.pc.toNat ≤ 0x10FE
  returnBound : ∀ w ∈ s.stack, w.toNat ≤ 0x1000
  depth : ∀ d, s.params.stackDepth = some d → s.stack.length ≤ d
  slots : ∀ used, s.batch = some used → used ≤ s.params.stepsPerTick
  notBoth : s.fault = none ∨ s.wait = none
  tickOver : s.fault = none ∨ s.batch = none

/-- The reading convention of R212: the program counter holds the address A of a word `1nnn` with nnn = A. -/
def State.Finished (s : State) : Prop :=
  s.wait = none ∧ s.fault = none ∧
    ∃ nnn : Addr12, s.fetch = .ok (formatNNN 0x1#4 nnn) ∧ s.pc = absolute nnn

/-- The registers an instruction may write: its destinations, and VF for the instructions of R22 (R22, R41). -/
def mayWriteReg (i : Instr) (r : Reg) : Bool :=
  match i with
  | .ldImm x _ | .addImm x _ | .ldReg x _ | .rnd x _ | .ldVxDT x => decide (r = x)
  | .or x _ | .and x _ | .xor x _ | .addReg x _ | .sub x _ | .shr x _ | .subn x _ | .shl x _ =>
    decide (r = x) || decide (r = flagReg)
  | .drw _ _ _ => decide (r = flagReg)
  | .ldRegs x => decide (r.val ≤ x.val)
  | .cls | .ret | .jp _ | .call _ | .seImm _ _ | .sneImm _ _ | .seReg _ _ | .sneReg _ _ | .ldI _ | .jpV0 _
  | .skp _ | .sknp _ | .ldVxK _ | .ldDTVx _ | .ldSTVx _ | .addI _ | .ldF _ | .ldB _ | .stRegs _ => false

/-- Whether a skip instruction skips in a state (R113 to R116, R170, R171); `none` for any other instruction. -/
def skipCondition (i : Instr) (s : State) : Option Bool :=
  match i with
  | .seImm x kk => some (decide (s.reg x = kk))
  | .sneImm x kk => some (decide (s.reg x ≠ kk))
  | .seReg x y => some (decide (s.reg x = s.reg y))
  | .sneReg x y => some (decide (s.reg x ≠ s.reg y))
  | .skp x => some (s.keyDownNow (s.reg x))
  | .sknp x => some (!s.keyDownNow (s.reg x))
  | .cls | .ret | .jp _ | .call _ | .ldImm _ _ | .addImm _ _ | .ldReg _ _ | .or _ _ | .and _ _ | .xor _ _
  | .addReg _ _ | .sub _ _ | .shr _ _ | .subn _ _ | .shl _ _ | .ldI _ | .jpV0 _ | .rnd _ _ | .drw _ _ _
  | .ldVxDT _ | .ldVxK _ | .ldDTVx _ | .ldSTVx _ | .addI _ | .ldF _ | .ldB _ | .stRegs _ | .ldRegs _ => none

/-- The program counter after a completed instruction, as the table of R24 gives it. -/
def pcAfter (i : Instr) (s : State) : Word :=
  match i with
  | .ret => s.stack.headD s.pc
  | .jp nnn | .call nnn => absolute nnn
  | .jpV0 nnn => BitVec.ofNat 16 (nnn.toNat + (s.reg 0).toNat)
  | .seImm _ _ | .sneImm _ _ | .seReg _ _ | .sneReg _ _ | .skp _ | .sknp _ =>
    if skipCondition i s = some true then s.pc + 4#16 else s.pc + 2#16
  | .cls | .ldImm _ _ | .addImm _ _ | .ldReg _ _ | .or _ _ | .and _ _ | .xor _ _ | .addReg _ _ | .sub _ _
  | .shr _ _ | .subn _ _ | .shl _ _ | .ldI _ | .rnd _ _ | .drw _ _ _ | .ldVxDT _ | .ldVxK _ | .ldDTVx _
  | .ldSTVx _ | .addI _ | .ldF _ | .ldB _ | .stRegs _ | .ldRegs _ => s.pc + 2#16

/-- The bit of an n-row sprite that covers the pixel at a row and a column of the display, for a sprite whose top
left pixel is at column `px` and row `py`, each wrapped; false where the sprite does not reach (R163, R165, R166). -/
def spriteBit (m : Memory) (base n px py row col : Nat) : Bool :=
  let down := (row + 32 - py % 32) % 32
  let right := (col + 64 - px % 64) % 64
  decide (down < n) && decide (right < 8) && (Memory.read m (base + down)).getLsbD (7 - right)

/-- The 1 bits of an n-row sprite, as offsets (row, column) from its top left pixel, in the order `DRW` meets them: rows
top to bottom, columns left to right, bit 7 of a row byte at column 0 (R165, R166). -/
def spriteOnes (m : Memory) (base n : Nat) : List (Nat × Nat) :=
  (List.range n).flatMap fun row =>
    ((List.range 8).filter fun col => (Memory.read m (base + row)).getLsbD (7 - col)).map fun col => (row, col)

end Sys2Proof.Machine
end

