-- ==== Sys2Proof/Certificates/Slice0/Obligations.lean ====
section
/-! DEFINITION. The statements for the provers, from the numbered rules of spec/. An equation
`exec i s = .next { s with … }` says three things at once: the instruction completes, what it writes, and that it
writes nothing else; `s.pc` is the address A the word was fetched from. -/

open Sys2Proof Sys2Proof.Machine

/-! ### Encoding -/

/-- Words written out from the encoding vectors of spec/95_test_vectors.md Part 4, one or two per family. -/
def Obligations.KnownWordsDecode : Prop :=
  decode [0x00#8, 0xE0#8] = .ok (.cls, []) ∧ decode [0x00#8, 0xEE#8] = .ok (.ret, []) ∧
  decode [0x1A#8, 0xBC#8] = .ok (.jp 0xABC#12, []) ∧ decode [0x9C#8, 0xD0#8] = .ok (.sneReg 0xC 0xD, []) ∧
  decode [0x3A#8, 0x3C#8] = .ok (.seImm 0xA 0x3C#8, []) ∧ decode [0x8A#8, 0xB5#8] = .ok (.sub 0xA 0xB, []) ∧
  decode [0xC5#8, 0xF0#8] = .ok (.rnd 0x5 0xF0#8, []) ∧ decode [0xD1#8, 0x25#8] = .ok (.drw 0x1 0x2 0x5#4, []) ∧
  decode [0xA2#8, 0xF0#8] = .ok (.ldI 0x2F0#12, []) ∧ decode [0xF4#8, 0x55#8] = .ok (.stRegs 0x4, []) ∧
  decode [0xE3#8, 0xA1#8] = .ok (.sknp 0x3, []) ∧ decode [0xF4#8, 0x0A#8] = .ok (.ldVxK 0x4, []) ∧
  decode [0x01#8, 0x23#8] = .error (.unrecognised 0x0123#16)

/-- Decoding the bytes of any well-formed instruction gives it back, with the bytes after it: no bit of a field is
dropped (R70 to R74). -/
def Obligations.DecodeInvertsEncode : Prop :=
  ∀ (i : Instr) (rest : List Byte), i.wellFormed = true → decode (encode i ++ rest) = .ok (i, rest)

/-- Every word that decodes is the encoding of the instruction it decodes to, as the model writes instructions. By R77 the
16 words of `SHR` and of `SHL` that differ in y are the same instruction; that the model's syntax keeps the ignored y,
which this statement needs for those words, is the model's choice (log 32). -/
def Obligations.EncodeInvertsDecode : Prop :=
  ∀ (op : Word) (i : Instr), decodeWord op = some i → encodeWord i = op

/-- R74: a word is the instruction of a row if and only if `op & mask = match`; there are 34 rows and they are
pairwise disjoint. -/
def Obligations.DecodeFollowsMatchAndMask : Prop :=
  opcodeRows.length = 34 ∧
  opcodeRows.Pairwise (fun a b => ∀ op : Word, ¬(a.matches op = true ∧ b.matches op = true)) ∧
  ∀ (op : Word) (row : Row), row ∈ opcodeRows →
    (row.matches op = true ↔ ∃ i, decodeWord op = some i ∧ i.row = row)

/-- R76: exactly the words the rule tabulates by family are unrecognised. That `5xyN` and `9xyN` with N not 0 are
among them is the spec's own decision D12 (log 23). -/
def Obligations.UnrecognisedWordsByFamily : Prop :=
  ∀ op : Word, decodeWord op = none ↔
    (fieldH op = 0x0#4 ∧ op ≠ 0x00E0#16 ∧ op ≠ 0x00EE#16) ∨
    (fieldH op = 0x5#4 ∧ fieldN op ≠ 0x0#4) ∨
    (fieldH op = 0x8#4 ∧ fieldN op ∈ [0x8#4, 0x9#4, 0xA#4, 0xB#4, 0xC#4, 0xD#4, 0xF#4]) ∨
    (fieldH op = 0x9#4 ∧ fieldN op ≠ 0x0#4) ∨
    (fieldH op = 0xE#4 ∧ fieldKK op ∉ [0x9E#8, 0xA1#8]) ∨
    (fieldH op = 0xF#4 ∧
      fieldKK op ∉ [0x07#8, 0x0A#8, 0x15#8, 0x18#8, 0x1E#8, 0x29#8, 0x33#8, 0x55#8, 0x65#8])

/-! ### Memory -/

/-- R52: an access to an address from 0 to 4095 succeeds, reads the cell, and writes the cell and no other. -/
def Obligations.InRangeAccessSucceeds : Prop :=
  ∀ (s : State) (a : Nat) (b : Byte), Memory.wf s.mem = true → a ≤ 4095 →
    s.memRead a 1 = .ok [Memory.read s.mem a] ∧
    ∃ t, s.memWrite a [b] = .ok t ∧ t = { s with mem := t.mem } ∧
      ∀ a', Memory.read t.mem a' = if a' = a then b else Memory.read s.mem a'

/-- R53: an access of which some address is outside 0 to 4095 raises `MemoryOutOfRange` with its lowest such
address, and the address is never wrapped. That a multi-byte access checks all its addresses before any effect is
the spec's own decision D8 (log 12). -/
def Obligations.OutOfRangeAccessFaults : Prop :=
  ∀ (s : State) (base len : Nat) (bytes : List Byte), 4096 < base + len → 0 < len → bytes.length = len →
    s.memRead base len = .error (.memoryOutOfRange (if base ≤ 4095 then 4096 else base)) ∧
    s.memWrite base bytes = .error (.memoryOutOfRange (if base ≤ 4095 then 4096 else base))

/-- Every write to an address of the address space keeps memory canonical, and canonical memories that read alike
are equal (R50; the list form is the model's choice, log 9). -/
def Obligations.MemoryFormIsCanonical : Prop :=
  (∀ (m : Memory) (a : Nat) (b : Byte), Memory.wf m = true → a < 4096 → Memory.wf (Memory.write m a b) = true) ∧
  ∀ m m' : Memory, Memory.wf m = true → Memory.wf m' = true →
    (∀ a, Memory.read m a = Memory.read m' a) → m = m'

/-- R55, R91: fetch gives the two bytes at the program counter, the lower address in the high half, at every
program counter up to 0xFFE, and raises `MemoryOutOfRange` with the lowest out-of-range address above. -/
def Obligations.FetchIsBigEndian : Prop :=
  ∀ s : State,
    (s.pc.toNat ≤ 0xFFE → ∃ op, s.fetch = .ok op ∧
      op.toNat = (Memory.read s.mem s.pc.toNat).toNat * 256 + (Memory.read s.mem (s.pc.toNat + 1)).toNat) ∧
    (s.pc.toNat = 0xFFF → s.fetch = .error (.memoryOutOfRange 0x1000)) ∧
    (0xFFF < s.pc.toNat → s.fetch = .error (.memoryOutOfRange s.pc.toNat))

/-! ### The step -/

/-- A step runs the decoded instruction: at a step slot of a `Tick` with no key wait, when the bytes at the program
counter decode to an instruction, the step is `exec` of it, with the slot counted when it completes and the `Tick` ended
when it faults (R90, R93, R96, R100), whatever is scheduled behind the core's move. That a step of the model is one slot
of a `Tick`, and the schedule, are the model's choices (log 3, 4). -/
def Obligations.StepRunsDecodedInstruction : Prop :=
  ∀ (s : State) (used : Nat) (rest : List Move) (i : Instr), s.AtSlot used rest → s.wait = none →
    s.pc.toNat ≤ 0xFFE → i.wellFormed = true → decode s.fetchBytes = .ok (i, []) →
    step s = match exec i { s with schedule := rest } with
      | .next t => .next (if t.fault = none then { t with batch := some (used + 1) } else { t with batch := none })
      | .fault r => .fault r
      | .refused r => .refused r

/-- R75: an unrecognised word advances the program counter by 2 and changes nothing else but the count of
step slots of the `Tick` in flight, and the schedule by the core's own move (log 3, 4). -/
def Obligations.UnrecognisedWordOnlyAdvances : Prop :=
  ∀ (s : State) (used : Nat) (rest : List Move) (op : Word), s.AtSlot used rest → s.wait = none →
    s.pc.toNat ≤ 0xFFE → decode s.fetchBytes = .error (.unrecognised op) →
    step s = .next { s with pc := s.pc + 2#16, batch := some (used + 1), schedule := rest }

/-- R91, R186: a fetch that runs out of memory sets the latch and changes nothing else but the schedule, by the core's own
move; the program counter is not advanced and the `Tick` is over (the latch and its precision are the spec's own decision
D8, log 12). -/
def Obligations.FetchFaultLeavesPc : Prop :=
  ∀ (s : State) (used : Nat) (rest : List Move), s.AtSlot used rest → s.wait = none → 0xFFF ≤ s.pc.toNat →
    step s = .next { s with
      fault := some (.memoryOutOfRange (max s.pc.toNat 0x1000)), batch := none, schedule := rest }

/-! ### Control transfer -/

/-- R110: `RET` pops the last pushed entry into the program counter as it is; on an empty stack the latch holds
`StackUnderflow` and nothing else changes. -/
def Obligations.RetPopsIntoPc : Prop :=
  decodeWord 0x00EE#16 = some .ret ∧
  (∀ (s : State) (w : Word) (rest : List Word), s.stack = w :: rest →
    exec .ret s = .next { s with pc := w, stack := rest }) ∧
  ∀ s : State, s.stack = [] → exec .ret s = .next { s with fault := some .stackUnderflow }

/-- R111: `JP nnn` sets the program counter to `nnn` and changes nothing else. -/
def Obligations.JpSetsPc : Prop :=
  ∀ (s : State) (nnn : Addr12), decodeWord (formatNNN 0x1#4 nnn) = some (.jp nnn) ∧
    exec (.jp nnn) s = .next { s with pc := BitVec.ofNat 16 nnn.toNat }

/-- R28, R112: `CALL nnn` pushes the address of the instruction after it and jumps; on a full stack of finite
`STACK_DEPTH` the latch holds `StackOverflow` with the value that could not be pushed, and nothing else changes. -/
def Obligations.CallPushesReturnAddress : Prop :=
  ∀ (s : State) (nnn : Addr12), decodeWord (formatNNN 0x2#4 nnn) = some (.call nnn) ∧
    (s.params.stackDepth ≠ some s.stack.length →
      exec (.call nnn) s =
        .next { s with pc := BitVec.ofNat 16 nnn.toNat, stack := (s.pc + 2#16) :: s.stack }) ∧
    (s.params.stackDepth = some s.stack.length →
      exec (.call nnn) s = .next { s with fault := some (.stackOverflow (s.pc + 2#16)) })

/-- The source's round trip (S6; R110, R112): a `CALL` that completes, followed by `RET`, leaves the state as it was
before the `CALL` with the program counter at the instruction after it. -/
def Obligations.CallThenRetReturns : Prop :=
  ∀ (s : State) (nnn : Addr12), s.fault = none → s.params.stackDepth ≠ some s.stack.length →
    ∃ t, exec (.call nnn) s = .next t ∧ exec .ret t = .next { s with pc := s.pc + 2#16 }

/-- R113, R114, R115, R116: the skips go to A + 4 when their condition holds and to A + 2 otherwise, and change
nothing else. -/
def Obligations.SkipsTestRegisters : Prop :=
  ∀ (s : State) (x y : Reg) (kk : Byte),
    decodeWord (formatXKK 0x3#4 x kk) = some (.seImm x kk) ∧
    decodeWord (formatXKK 0x4#4 x kk) = some (.sneImm x kk) ∧
    decodeWord (formatXYN 0x5#4 x y 0x0#4) = some (.seReg x y) ∧
    decodeWord (formatXYN 0x9#4 x y 0x0#4) = some (.sneReg x y) ∧
    exec (.seImm x kk) s = .next { s with pc := if s.reg x = kk then s.pc + 4#16 else s.pc + 2#16 } ∧
    exec (.sneImm x kk) s = .next { s with pc := if s.reg x = kk then s.pc + 2#16 else s.pc + 4#16 } ∧
    exec (.seReg x y) s = .next { s with pc := if s.reg x = s.reg y then s.pc + 4#16 else s.pc + 2#16 } ∧
    exec (.sneReg x y) s = .next { s with pc := if s.reg x = s.reg y then s.pc + 2#16 else s.pc + 4#16 }

/-- R117: `JP V0, nnn` sets the program counter to the exact sum `nnn + V[0]`. That the sum is not reduced to 12 bits
is the spec's own decision D30 (log 23). -/
def Obligations.JpV0AddsOffset : Prop :=
  ∀ (s : State) (nnn : Addr12), ∃ t, exec (.jpV0 nnn) s = .next t ∧
    t.pc.toNat = nnn.toNat + (s.reg 0).toNat ∧ t = { s with pc := t.pc }

/-- R24: the program counter after an instruction that completes is the one the rule tabulates. -/
def Obligations.PcAfterInstruction : Prop :=
  ∀ (i : Instr) (s t : State), s.fault = none → exec i s = .next t → t.fault = none → t.pc = pcAfter i s

/-- R212 (the spec's derived reading convention): a step of a finished program is one more execution of its
self-jump; it leaves everything but the count of step slots of the `Tick` in flight as it was, and takes the core's own
move off the schedule. -/
def Obligations.FinishedStaysFinished : Prop :=
  ∀ (s : State) (used : Nat) (rest : List Move), s.Finished → s.AtSlot used rest →
    step s = .next { s with batch := some (used + 1), schedule := rest }

/-! ### Register load, arithmetic, logic, shift, random -/

/-- R130, R131, R132: load immediate, add immediate modulo 256 without a flag, register copy. -/
def Obligations.LoadAndAddImmediate : Prop :=
  ∀ (s : State) (x y : Reg) (kk : Byte),
    decodeWord (formatXKK 0x6#4 x kk) = some (.ldImm x kk) ∧
    decodeWord (formatXKK 0x7#4 x kk) = some (.addImm x kk) ∧
    decodeWord (formatXYN 0x8#4 x y 0x0#4) = some (.ldReg x y) ∧
    exec (.ldImm x kk) s = .next { s with pc := s.pc + 2#16, v := s.v.set x.val kk } ∧
    exec (.addImm x kk) s = .next { s with
      pc := s.pc + 2#16, v := s.v.set x.val (BitVec.ofNat 8 (((s.reg x).toNat + kk.toNat) % 256)) } ∧
    exec (.ldReg x y) s = .next { s with pc := s.pc + 2#16, v := s.v.set x.val (s.reg y) }

/-- R133, R134, R135: the logical operations write `V[x]` bit by bit and then VF with 0, whatever the operands, so
that with x = 15 the 0 remains. -/
def Obligations.LogicalOpsClearVf : Prop :=
  ∀ (s : State) (x y : Reg),
    decodeWord (formatXYN 0x8#4 x y 0x1#4) = some (.or x y) ∧
    decodeWord (formatXYN 0x8#4 x y 0x2#4) = some (.and x y) ∧
    decodeWord (formatXYN 0x8#4 x y 0x3#4) = some (.xor x y) ∧
    exec (.or x y) s = .next { s with
      pc := s.pc + 2#16, v := (s.v.set x.val (s.reg x ||| s.reg y)).set 15 0x00#8 } ∧
    exec (.and x y) s = .next { s with
      pc := s.pc + 2#16, v := (s.v.set x.val (s.reg x &&& s.reg y)).set 15 0x00#8 } ∧
    exec (.xor x y) s = .next { s with
      pc := s.pc + 2#16, v := (s.v.set x.val (s.reg x ^^^ s.reg y)).set 15 0x00#8 }

/-- R136: the sum modulo 256 goes to `V[x]`, then the carry of the exact sum to VF; that the carry remains for x = 15 is
the order of the spec's own decision D7 (log 7), the same under both `VF_WRITE_ORDER`. -/
def Obligations.AddSetsCarry : Prop :=
  ∀ (s : State) (x y : Reg),
    decodeWord (formatXYN 0x8#4 x y 0x4#4) = some (.addReg x y) ∧
    exec (.addReg x y) s = .next { s with
      pc := s.pc + 2#16
      v := (s.v.set x.val (BitVec.ofNat 8 (((s.reg x).toNat + (s.reg y).toNat) % 256))).set 15
        (if (s.reg x).toNat + (s.reg y).toNat > 255 then 0x01#8 else 0x00#8) }

/-- R137, R139, R143: `SUB` and `SUBN` write the wrapped difference to `V[x]` and the strict comparison to VF; for
x = 15 the write that `VF_WRITE_ORDER` puts last remains (the default order is the spec's own decision D7, log 7). -/
def Obligations.SubtractSetsGreaterFlag : Prop :=
  ∀ (s : State) (x y : Reg),
    let a : Int := (s.reg x).toNat
    let b : Int := (s.reg y).toNat
    let difference : Byte := BitVec.ofInt 8 ((a - b) % 256)
    let reverse : Byte := BitVec.ofInt 8 ((b - a) % 256)
    let greater : Byte := if a > b then 0x01#8 else 0x00#8
    let less : Byte := if b > a then 0x01#8 else 0x00#8
    decodeWord (formatXYN 0x8#4 x y 0x5#4) = some (.sub x y) ∧
    decodeWord (formatXYN 0x8#4 x y 0x7#4) = some (.subn x y) ∧
    (s.params.vfWriteOrder = .asListed →
      exec (.sub x y) s = .next { s with
        pc := s.pc + 2#16, v := (s.v.set 15 greater).set x.val difference } ∧
      exec (.subn x y) s = .next { s with pc := s.pc + 2#16, v := (s.v.set 15 less).set x.val reverse }) ∧
    (s.params.vfWriteOrder = .flagLast →
      exec (.sub x y) s = .next { s with
        pc := s.pc + 2#16, v := (s.v.set x.val difference).set 15 greater } ∧
      exec (.subn x y) s = .next { s with pc := s.pc + 2#16, v := (s.v.set x.val reverse).set 15 less })

/-- R138, R140, R143: `SHR` and `SHL` shift `V[x]` by one and put the bit shifted out into VF; the field y has no
effect; for x = 15 the write that `VF_WRITE_ORDER` puts last remains (decision D7, log 7). -/
def Obligations.ShiftSetsBitShiftedOut : Prop :=
  ∀ (s : State) (x y : Reg),
    let a : Nat := (s.reg x).toNat
    let low : Byte := BitVec.ofNat 8 (a % 2)
    let high : Byte := BitVec.ofNat 8 (a / 128)
    let half : Byte := BitVec.ofNat 8 (a / 2)
    let double : Byte := BitVec.ofNat 8 (2 * a % 256)
    decodeWord (formatXYN 0x8#4 x y 0x6#4) = some (.shr x y) ∧
    decodeWord (formatXYN 0x8#4 x y 0xE#4) = some (.shl x y) ∧
    (s.params.vfWriteOrder = .asListed →
      exec (.shr x y) s = .next { s with pc := s.pc + 2#16, v := (s.v.set 15 low).set x.val half } ∧
      exec (.shl x y) s = .next { s with pc := s.pc + 2#16, v := (s.v.set 15 high).set x.val double }) ∧
    (s.params.vfWriteOrder = .flagLast →
      exec (.shr x y) s = .next { s with pc := s.pc + 2#16, v := (s.v.set x.val half).set 15 low } ∧
      exec (.shl x y) s = .next { s with pc := s.pc + 2#16, v := (s.v.set x.val double).set 15 high })

/-- R141: `RND` draws one byte and writes it under the mask. The byte is a free value, so this holds for every byte
the environment may answer (the spec's own decision D17; the counter of draws is the model's, log 2). -/
def Obligations.RndMasksFreeByte : Prop :=
  ∀ (s : State) (x : Reg) (kk : Byte),
    exec (.rnd x kk) s = .next { s with
      pc := s.pc + 2#16, v := s.v.set x.val (Config.randomByte s.draws &&& kk), draws := s.draws + 1 }

/-! ### Index register and memory instructions -/

/-- R150, R151: `LD I, nnn` loads the index register, `ADD I, Vx` adds modulo 65536; neither writes a flag. -/
def Obligations.IndexLoadAndAdd : Prop :=
  ∀ (s : State) (nnn : Addr12) (x : Reg),
    decodeWord (formatNNN 0xA#4 nnn) = some (.ldI nnn) ∧
    decodeWord (formatXKK 0xF#4 x 0x1E#8) = some (.addI x) ∧
    exec (.ldI nnn) s = .next { s with pc := s.pc + 2#16, idx := BitVec.ofNat 16 nnn.toNat } ∧
    exec (.addI x) s = .next { s with
      pc := s.pc + 2#16, idx := BitVec.ofNat 16 ((s.idx.toNat + (s.reg x).toNat) % 65536) }

/-- R152: `LD F, Vx` sets the index register to the exact product by 5, at most 1275. That the whole byte is
multiplied is the spec's own decision D11 (log 23). -/
def Obligations.GlyphAddressIsProduct : Prop :=
  ∀ (s : State) (x : Reg), ∃ t, exec (.ldF x) s = .next t ∧ t.idx.toNat = (s.reg x).toNat * 5 ∧
    t = { s with pc := s.pc + 2#16, idx := t.idx }

/-- R153: `LD B, Vx` stores the three decimal digits at `I`, `I + 1`, `I + 2` and touches no other byte; if an address
is out of range it stores nothing and the latch holds the lowest one (that the fault is precise is the spec's own
decision D8, log 12). -/
def Obligations.BcdStoresDigits : Prop :=
  ∀ (s : State) (x : Reg),
    (Memory.wf s.mem = true → s.idx.toNat + 2 ≤ 4095 → ∃ t, exec (.ldB x) s = .next t ∧
      t = { s with pc := s.pc + 2#16, mem := t.mem } ∧
      (Memory.read t.mem s.idx.toNat).toNat = (s.reg x).toNat / 100 ∧
      (Memory.read t.mem (s.idx.toNat + 1)).toNat = (s.reg x).toNat / 10 % 10 ∧
      (Memory.read t.mem (s.idx.toNat + 2)).toNat = (s.reg x).toNat % 10 ∧
      ∀ a, a < s.idx.toNat ∨ s.idx.toNat + 2 < a → Memory.read t.mem a = Memory.read s.mem a) ∧
    (4095 < s.idx.toNat + 2 →
      exec (.ldB x) s = .next { s with fault := some (.memoryOutOfRange (max s.idx.toNat 4096)) })

/-- R154: `LD [I], Vx` stores V0 to Vx from `I` on and touches no other byte, and leaves `I` unchanged (the spec's own
decision D19, log 23); if an address is out of range it stores nothing and the latch holds the lowest one. -/
def Obligations.StoreRegistersWritesSpan : Prop :=
  ∀ (s : State) (x : Reg),
    (Memory.wf s.mem = true → s.idx.toNat + x.val ≤ 4095 → ∃ t, exec (.stRegs x) s = .next t ∧
      t = { s with pc := s.pc + 2#16, mem := t.mem } ∧
      (∀ k : Reg, k ≤ x → Memory.read t.mem (s.idx.toNat + k.val) = s.reg k) ∧
      ∀ a, a < s.idx.toNat ∨ s.idx.toNat + x.val < a → Memory.read t.mem a = Memory.read s.mem a) ∧
    (4095 < s.idx.toNat + x.val →
      exec (.stRegs x) s = .next { s with fault := some (.memoryOutOfRange (max s.idx.toNat 4096)) })

/-- R155: `LD Vx, [I]` loads V0 to Vx from `I` on, leaves the registers above x and `I` unchanged (the latter the
spec's own decision D19, log 23); if an address is out of range it loads nothing and the latch holds the lowest one. -/
def Obligations.LoadRegistersReadsSpan : Prop :=
  ∀ (s : State) (x : Reg),
    (s.idx.toNat + x.val ≤ 4095 → ∃ t, exec (.ldRegs x) s = .next t ∧
      t = { s with pc := s.pc + 2#16, v := t.v } ∧
      ∀ k : Reg, t.reg k = if k ≤ x then Memory.read s.mem (s.idx.toNat + k.val) else s.reg k) ∧
    (4095 < s.idx.toNat + x.val →
      exec (.ldRegs x) s = .next { s with fault := some (.memoryOutOfRange (max s.idx.toNat 4096)) })

/-- R62 (the spec's own decision D24): bytes stored by `LD [I], Vx` are seen by a fetch from their address, with the
high byte from the lower-numbered register. -/
def Obligations.StoreIsSeenByFetch : Prop :=
  ∀ (s t : State) (x k : Reg) (pc : Word), Memory.wf s.mem = true → s.idx.toNat + x.val ≤ 4095 → k < x →
    pc.toNat = s.idx.toNat + k.val → exec (.stRegs x) s = .next t →
    State.fetch { t with pc := pc } = .ok (wordOfBytes (s.reg k) (s.reg (k + 1)))

/-! ### Display -/

/-- R161, R165: `SetPixel` reduces its coordinates modulo 64 and 32, answers whether the pixel was set, toggles it, and
touches no other pixel; `DRW` puts VF to 1 exactly on the answer 1. The record of the request is the model's own
(log 16). -/
def Obligations.SetPixelToggles : Prop :=
  ∀ (c : Canvas) (x y : Nat),
    (c.plot x y).vf = (if c.fb.pixel y x then 0x01#8 else c.vf) ∧
    (c.plot x y).requests = .setPixel x y :: c.requests ∧
    ∀ row col, (c.plot x y).fb.pixel row col =
      if row % 32 = y % 32 ∧ col % 64 = x % 64 then !c.fb.pixel row col else c.fb.pixel row col

/-- R162, R164: `CLS` clears every pixel, makes one request, and writes nothing else of the core but the program counter.
The record of the request is the model's own (log 16). -/
def Obligations.ClsClearsDisplay : Prop :=
  decodeWord 0x00E0#16 = some .cls ∧
  ∀ s : State, ∃ t, exec .cls s = .next t ∧ (∀ row col, t.fb.pixel row col = false) ∧
    t = { s with pc := s.pc + 2#16, fb := t.fb, requests := .clearDisplay :: s.requests }

/-- R165: under every parameter value `DRW` completes when its rows are in memory, or when it has none, and writes
only the program counter, VF with 0 or 1, the frame buffer and its requests; otherwise the latch holds the lowest
address out of range and nothing else changes, VF and the pixels included (decision D8, log 12). -/
def Obligations.DrawCompletesOrFaults : Prop :=
  ∀ (s : State) (x y : Reg) (n : BitVec 4),
    (n = 0 ∨ s.idx.toNat + n.toNat ≤ 4096 → ∃ t, exec (.drw x y n) s = .next t ∧
      (t.reg 15 = 0 ∨ t.reg 15 = 1) ∧
      t = { s with pc := s.pc + 2#16, v := s.v.set 15 (t.reg 15), fb := t.fb, requests := t.requests }) ∧
    (n ≠ 0 → 4096 < s.idx.toNat + n.toNat →
      exec (.drw x y n) s = .next { s with fault := some (.memoryOutOfRange (max s.idx.toNat 4096)) })

/-- R161, R163, R165, R166: `DRW` toggles exactly the pixels its 1 bits cover, wrapped at the edges, sets VF exactly
when one of them was set before, and hands over the unreduced coordinates row by row, left to right; under
`DRW_VF_OPERAND = sampled` (the spec's own decision D6, log 13) whatever its registers, under `live` when neither is
register 15. The leftmost pixel of a row is bit 7 of its byte (the spec's decision D5 from general knowledge, log 11);
the record of requests, newest first, is the model's own (log 16). -/
def Obligations.DrawTogglesSpritePixels : Prop :=
  ∀ (s : State) (x y : Reg) (n : BitVec 4), s.params.drwVfOperand = .sampled ∨ (x ≠ 15 ∧ y ≠ 15) →
    n = 0 ∨ s.idx.toNat + n.toNat ≤ 4096 → ∃ t, exec (.drw x y n) s = .next t ∧
      (∀ row col, row < 32 → col < 64 → t.fb.pixel row col =
        (s.fb.pixel row col ^^
          spriteBit s.mem s.idx.toNat n.toNat (s.reg x).toNat (s.reg y).toNat row col)) ∧
      (t.reg 15 = 1 ↔ ∃ row col, row < 32 ∧ col < 64 ∧ s.fb.pixel row col = true ∧
        spriteBit s.mem s.idx.toNat n.toNat (s.reg x).toNat (s.reg y).toNat row col = true) ∧
      t.requests = ((spriteOnes s.mem s.idx.toNat n.toNat).map fun bit =>
        Request.setPixel ((s.reg x).toNat + bit.2) ((s.reg y).toNat + bit.1)).reverse ++ s.requests

/-- R165, R166 under `DRW_VF_OPERAND = live` (the alternative of the spec's own decision D6, log 13), for every sprite and
all registers: VF is cleared first, the 1 bits are drawn row by row, left to right, and a coordinate named by register 15
is read again at every pixel, from the VF the drawing has left so far. For x = 15 and a row 0xC0 that means column 0 and
then column 1, or column 2 if the first pixel was set and so has put VF to 1. The record of requests is the model's own
(log 16), bit 7 leftmost is decision D5 (log 11). -/
def Obligations.DrawLiveRereadsFlag : Prop :=
  (∀ (s : State) (x y : Reg) (n : BitVec 4), s.params.drwVfOperand = .live →
    n = 0 ∨ s.idx.toNat + n.toNat ≤ 4096 →
    let px (c : Canvas) : Nat := if x = 15 then c.vf.toNat else (s.reg x).toNat
    let py (c : Canvas) : Nat := if y = 15 then c.vf.toNat else (s.reg y).toNat
    let drawn : Canvas := (spriteOnes s.mem s.idx.toNat n.toNat).foldl
      (fun c bit => c.plot (px c + bit.2) (py c + bit.1)) { fb := s.fb, vf := 0x00#8, requests := s.requests }
    exec (.drw x y n) s = .next { s with
      pc := s.pc + 2#16, v := s.v.set 15 drawn.vf, fb := drawn.fb, requests := drawn.requests }) ∧
  ∀ (s : State) (y : Reg), s.params.drwVfOperand = .live → y ≠ 15 → s.idx.toNat ≤ 4095 →
    Memory.read s.mem s.idx.toNat = 0xC0#8 →
    let top : Nat := (s.reg y).toNat
    let second : Nat := if s.fb.pixel top 0 then 2 else 1
    ∃ t, exec (.drw 15 y 1#4) s = .next t ∧
      (∀ row col, t.fb.pixel row col =
        (s.fb.pixel row col ^^ decide (row % 32 = top % 32 ∧ (col % 64 = 0 ∨ col % 64 = second)))) ∧
      (t.reg 15 = 1 ↔ s.fb.pixel top 0 = true ∨ s.fb.pixel top second = true)

/-- The source's property S7 (R161, R165): drawing a sprite a second time at the same place restores every pixel, and
the second draw reports a collision exactly when the sprite covers a pixel that was clear before the first, hence
always on a clear display when the sprite has a 1 bit. `x` and `y` are not register 15, so the coordinates are the
same in both draws. -/
def Obligations.DrawTwiceRestores : Prop :=
  ∀ (s t u : State) (x y : Reg) (n : BitVec 4), x ≠ 15 → y ≠ 15 →
    n = 0 ∨ s.idx.toNat + n.toNat ≤ 4096 →
    exec (.drw x y n) s = .next t → exec (.drw x y n) t = .next u →
    u.fb = s.fb ∧
    (u.reg 15 = 1 ↔ ∃ row col, row < 32 ∧ col < 64 ∧ s.fb.pixel row col = false ∧
      spriteBit s.mem s.idx.toNat n.toNat (s.reg x).toNat (s.reg y).toNat row col = true)

/-! ### Keys and timers -/

/-- R170, R171, R174: `SKP` and `SKNP` sample the key whose code is the whole of `V[x]`; no key has a code above 15, so
there `SKP` does not skip and `SKNP` does (the spec's own decision D10, log 23). -/
def Obligations.KeySkipsSampleKey : Prop :=
  ∀ (s : State) (x : Reg),
    let down : Bool := decide (∃ k : Key, (s.reg x).toNat = k.val ∧ s.keys[k.val] = true)
    exec (.skp x) s = .next { s with pc := if down then s.pc + 4#16 else s.pc + 2#16 } ∧
    exec (.sknp x) s = .next { s with pc := if down then s.pc + 2#16 else s.pc + 4#16 }

/-- R172, R175, R176: the delay timer is read and both timers are written as whole bytes; no request is made. -/
def Obligations.TimerLoads : Prop :=
  ∀ (s : State) (x : Reg),
    decodeWord (formatXKK 0xF#4 x 0x07#8) = some (.ldVxDT x) ∧
    decodeWord (formatXKK 0xF#4 x 0x15#8) = some (.ldDTVx x) ∧
    decodeWord (formatXKK 0xF#4 x 0x18#8) = some (.ldSTVx x) ∧
    exec (.ldVxDT x) s = .next { s with pc := s.pc + 2#16, v := s.v.set x.val s.dt } ∧
    exec (.ldDTVx x) s = .next { s with pc := s.pc + 2#16, dt := s.reg x } ∧
    exec (.ldSTVx x) s = .next { s with pc := s.pc + 2#16, st := s.reg x }

/-- R101, R173: `LD Vx, K` enters the wait at A + 2 and loads nothing; the next key release loads the code of its key
and ends the wait, and writes nothing else. -/
def Obligations.KeyWaitLoadsReleasedKey : Prop :=
  ∀ (s : State) (x : Reg) (k : Key),
    decodeWord (formatXKK 0xF#4 x 0x0A#8) = some (.ldVxK x) ∧
    exec (.ldVxK x) s = .next { s with pc := s.pc + 2#16, wait := some x } ∧
    (s.fault = none → State.keyRelease { s with wait := some x } k =
      { s with v := s.v.set x.val (BitVec.ofNat 8 k.val), wait := none })

/-! ### The batch, the wait, the environment -/

/-- R97, R98, R99: at the end of a batch both timers go down by one and not below 0, one tone request is made from the
decayed sound timer, then `Present`, and the `Tick` is over. That this is a step of its own and the record of requests are
the model's (log 3, 16). -/
def Obligations.BatchEndDecaysTimers : Prop :=
  ∀ (s : State) (rest : List Move), s.AtBatchEnd rest → ∃ t, step s = .next t ∧
    t.dt.toNat = s.dt.toNat - 1 ∧ t.st.toNat = s.st.toNat - 1 ∧
    t.tone = decide (1 < s.st.toNat) ∧ t.visible = s.fb ∧
    t.requests = .present :: (if 1 < s.st.toNat then Request.toneOn else Request.toneOff) :: s.requests ∧
    t = { s with
      dt := t.dt, st := t.st, tone := t.tone, visible := s.fb, batch := none, requests := t.requests
      schedule := rest }

/-- R96, R103: while the core waits for a key a step slot of a `Tick` passes and changes nothing else but the schedule, by
the core's own move. -/
def Obligations.WaitingSlotDoesNothing : Prop :=
  ∀ (s : State) (used : Nat) (rest : List Move) (r : Reg), s.AtSlot used rest → s.wait = some r →
    step s = .next { s with batch := some (used + 1), schedule := rest }

/-- R101, R103, R204: only a key going up or a load ends a wait; no step of the core does, however many pass. -/
def Obligations.OnlyKeyUpOrLoadEndsWait : Prop :=
  ∀ (s t : State) (r : Reg), s.wait = some r → step s = .next t → t.wait ≠ some r →
    (∃ k rest, s.schedule = .keyUp k :: rest) ∨ ∃ image rest, s.schedule = .load image :: rest

/-- R104: while a fault is latched a step of the core changes nothing, and neither does a key release, a whole `Tick`, or
a `Tick` of the schedule, which is only taken off it (the spec's own decision D8, log 12; the schedule is log 4). -/
def Obligations.FaultedCoreIsHalted : Prop :=
  ∀ (s : State) (c : Cause) (k : Key), s.fault = some c →
    (∀ rest, s.CoreIsNext rest → step s = .next { s with schedule := rest }) ∧
    s.keyRelease k = s ∧ tick s = .next s ∧
    ∀ rest, s.schedule = .tick :: rest → s.batch = none → step s = .next { s with schedule := rest }

/-- R185, R186, R100: a step that sets the latch, whatever is scheduled, is a step of the core and changes nothing else but
that the `Tick` in flight is over and that the core's own move is off the schedule: nothing of the instruction is done
(decisions D8, D25, log 12). -/
def Obligations.FaultsArePrecise : Prop :=
  ∀ s t : State, s.fault = none → step s = .next t → t.fault ≠ none →
    ∃ rest, s.CoreIsNext rest ∧ t = { s with fault := t.fault, batch := none, schedule := rest }

/-- R11, R187: an instruction step always answers a next state, and the latch after it is the one before it or holds
one fault, which the spec names for the instruction or for the fetch. -/
def Obligations.InstructionStepIsTotal : Prop :=
  ∀ s : State, ∃ t, instructionStep s = .next t ∧
    (t.fault = s.fault ∨ t.fault = some .stackUnderflow ∨
      (∃ a, 4096 ≤ a ∧ a ≤ 65535 ∧ t.fault = some (.memoryOutOfRange a)) ∨
      t.fault = some (.stackOverflow (s.pc + 2#16)))

/-- R6, R36, R95, R101, R102, R191, R200: the moves a step takes off the schedule. A `Tick` that comes to a core with no
fault and no `Tick` in flight starts a cycle batch with no step slot used; with no `Tick` in flight the core does nothing,
since a `Tick` is the only way it advances. A move of the core is a step of the core. Between two `Tick`s, and under
`KEY_DELIVERY = step_boundary` between two steps of one: `KeyDown` sets a level; `KeyUp` of a key that is down clears it
and ends a pending wait of a core that has not faulted, and changes only the level otherwise; `Load` is the load of its
image, whatever the state. The schedule, that a `Tick` is started by a step of its own, and that a load lands where key
moves do, are the model's (log 3, 4, 5); the stop on a `KeyUp` the spec does not allow is the model's own (log 6). -/
def Obligations.ScheduledMovesLand : Prop :=
  ∀ (s : State) (k : Key) (image : List Byte) (rest : List Move),
    (s.schedule = .tick :: rest → s.batch = none → s.fault = none →
      step s = .next { s with schedule := rest, batch := some 0 }) ∧
    (s.schedule = [] → s.batch = none → step s = .next s) ∧
    (s.schedule = .core :: rest → s.batch = none → step s = .next { s with schedule := rest }) ∧
    (s.schedule = .core :: rest → step s = coreStep { s with schedule := rest }) ∧
    (s.params.keyDelivery = .stepBoundary ∨ s.batch = none →
      (s.schedule = .keyDown k :: rest →
        step s = .next { s with keys := s.keys.set k.val true, schedule := rest }) ∧
      (s.schedule = .keyUp k :: rest → s.keys[k.val] = true → s.wait = none ∨ s.fault ≠ none →
        step s = .next { s with keys := s.keys.set k.val false, schedule := rest }) ∧
      (s.schedule = .keyUp k :: rest → s.keys[k.val] = true → s.fault = none → ∀ r, s.wait = some r →
        step s = .next { s with
          keys := s.keys.set k.val false, schedule := rest,
          v := s.v.set r.val (BitVec.ofNat 8 k.val), wait := none }) ∧
      (s.schedule = .keyUp k :: rest → s.keys[k.val] = false → step s = .fault (.keyUpWithoutKeyDown k)) ∧
      (s.schedule = .load image :: rest → step s = .next (State.load { s with schedule := rest } image)))

/-- R38, R102, R208: a `Tick` that is due inside a `Tick` waits, and so does, under `KEY_DELIVERY = batch_boundary`, any
other move of the environment: the step is the core's, and the schedule is kept (the schedule and the waiting are the
model's, log 4, 28). -/
def Obligations.TickInFlightDefersMoves : Prop :=
  ∀ (s : State) (m : Move) (rest : List Move), s.schedule = m :: rest → s.batch ≠ none →
    m = .tick ∨ (m ≠ .core ∧ s.params.keyDelivery = .batchBoundary) →
    step s = coreStep s ∧ ∃ t, step s = .next t ∧ t.schedule = m :: rest

/-! ### Reset -/

/-- R201: a load of more than 3584 bytes is answered `ProgramTooLarge` and changes nothing; one of at most 3584 bytes,
the empty one included, is answered `ok`. The record of answers is the model's own (log 16). -/
def Obligations.LoadChecksSize : Prop :=
  ∀ (s : State) (image : List Byte),
    (3584 < image.length →
      s.load image = { s with requests := .programTooLarge image.length :: s.requests }) ∧
    (image.length ≤ 3584 → (s.load image).requests = .loadOk :: s.requests)

/-- R202, R203: after a successful load memory holds the font from 0x000, the image from 0x200, and 0x00 elsewhere
(the zeros are the spec's own decision D3, log 9; fifteen of the glyphs are its general knowledge, log 10). -/
def Obligations.LoadPlacesImage : Prop :=
  ∀ (s : State) (image : List Byte), image.length ≤ 3584 → ∀ a,
    Memory.read (s.load image).mem a =
      if 0x200 ≤ a ∧ a < 0x200 + image.length then image.getD (a - 0x200) 0x00#8 else fontTable.getD a 0x00#8

/-- R39, R204: a successful load, whatever the state before it, leaves the core as R39 tabulates: registers, timers,
stack, wait and fault latch, memory with the font and the image, the display clear and the tone silent; so does the reset
state of the model, which is the load of the empty image. Of the values, `pc = 0x200`, the place of the font with its
glyph 9, and the image are the source's; the others are the spec's own decisions D2, D8, D22 (log 8, 12, 15), D3 for the
zeros of memory (log 9) and its general knowledge G1 for the other glyphs (log 10). The record of answers in the last
clause is the model's own (log 16). -/
def Obligations.LoadResetsCore : Prop :=
  (∀ (s t : State) (image : List Byte), image.length ≤ 3584 → t = s.load image ∨ (image = [] ∧ t = State.reset) →
    t.pc = 0x0200#16 ∧ t.stack = [] ∧ t.wait = none ∧ t.fault = none ∧ (∀ r, t.reg r = 0x00#8) ∧
    t.idx = 0x0000#16 ∧ t.dt = 0x00#8 ∧ t.st = 0x00#8 ∧
    (∀ a, Memory.read t.mem a =
      if 0x200 ≤ a ∧ a < 0x200 + image.length then image.getD (a - 0x200) 0x00#8 else fontTable.getD a 0x00#8) ∧
    (∀ row col, t.fb.pixel row col = false) ∧ t.tone = false) ∧
  State.reset.load [] = { State.reset with requests := [.loadOk] }

/-! ### Whole-machine rules -/

/-- R21, R22, R41: an instruction writes no general register but those the rules name for it. -/
def Obligations.RegistersWrittenOnlyAsNamed : Prop :=
  ∀ (i : Instr) (s t : State) (r : Reg), exec i s = .next t → mayWriteReg i r = false → t.reg r = s.reg r

/-- R26, R27, R30 to R32, R41, R187: who writes the rest of the state, over all instructions, and which one kind of
fault each can raise; what only the batch and the environment write, no instruction does. -/
def Obligations.SpecialStateWrittenOnlyAsNamed : Prop :=
  ∀ (i : Instr) (s t : State), exec i s = .next t →
    (t.idx ≠ s.idx → (∃ nnn, i = .ldI nnn) ∨ ∃ x, i = .addI x ∨ i = .ldF x) ∧
    (t.stack ≠ s.stack → i = .ret ∨ ∃ nnn, i = .call nnn) ∧
    (t.dt ≠ s.dt → ∃ x, i = .ldDTVx x) ∧ (t.st ≠ s.st → ∃ x, i = .ldSTVx x) ∧
    (t.wait ≠ s.wait → ∃ x, i = .ldVxK x) ∧
    (t.mem ≠ s.mem → ∃ x, i = .ldB x ∨ i = .stRegs x) ∧
    (t.fb ≠ s.fb ∨ t.requests ≠ s.requests → i = .cls ∨ ∃ x y n, i = .drw x y n) ∧
    (t.draws ≠ s.draws → ∃ x kk, i = .rnd x kk) ∧
    (t.fault ≠ s.fault →
      (i = .ret ∧ t.fault = some .stackUnderflow) ∨
      ((∃ nnn, i = .call nnn) ∧ ∃ v, t.fault = some (.stackOverflow v)) ∨
      (((∃ x, i = .ldB x ∨ i = .stRegs x ∨ i = .ldRegs x) ∨ ∃ x y n, i = .drw x y n) ∧
        ∃ a, t.fault = some (.memoryOutOfRange a))) ∧
    t.keys = s.keys ∧ t.tone = s.tone ∧ t.visible = s.visible ∧ t.params = s.params ∧ t.batch = s.batch ∧
    t.schedule = s.schedule

/-- R31, R34, R176: no instruction reads the sound timer, the tone or the visible surface: two states that differ only
there run every instruction alike and still differ only there; the sound timer is then the one each started with, or
`V[x]` in both after `LD ST, Vx`. -/
def Obligations.SoundTimerIsNeverRead : Prop :=
  ∀ (i : Instr) (s t : State) (st : Byte) (tone : Bool) (visible : Frame), exec i s = .next t →
    ((∀ x, i ≠ .ldSTVx x) → (t.st = s.st ∧ exec i { s with st := st, tone := tone, visible := visible } =
      .next { t with st := st, tone := tone, visible := visible })) ∧
    ∀ x, i = .ldSTVx x → t.st = s.reg x ∧ exec i { s with st := st, tone := tone, visible := visible } =
      .next { t with tone := tone, visible := visible }

/-- The parameters of R5 never change: no step of the core or of the environment writes them (they stand in the state
by the model's choice, log 1). -/
def Obligations.ParametersNeverChange : Prop :=
  ∀ s t : State, step s = .next t → t.params = s.params

/-- The invariant holds at reset (R25, R28, R39, R50). -/
def Obligations.InvariantHoldsAtReset : Prop := State.reset.Inv

/-- Every step of the core and of the environment, from every state, keeps the invariant: memory stays canonical and
inside the address space, the program counter never passes 0x10FE so its 16-bit wrap is never reached (R25), return
addresses never pass 0x1000, the stack stays within `STACK_DEPTH` (R28), a `Tick` in flight uses no more slots than it has
(R96), and a faulted core is not waiting and has no `Tick` in flight (R100). -/
def Obligations.InvariantIsKept : Prop :=
  ∀ s t : State, s.Inv → step s = .next t → t.Inv

/-- R95: with no move of the environment inside it, one `Tick` of the schedule is a step that starts it, `STEPS_PER_TICK`
slot steps and one batch-end step of the model, faults and waits included: the step-by-step machine refines the atomic
`Tick` (log 3). The same holds with more moves scheduled when the first of them is the next `Tick`, or any move of the
environment under `KEY_DELIVERY = batch_boundary` (R38, R102), if the `Tick` ends without a fault: so a list of `Tick`s is as
many atomic `Tick`s, one after another. -/
def Obligations.TickIsRunOfSteps : Prop :=
  (∀ s : State, s.schedule = [.tick] → s.batch = none →
    Host.Core.run core (s.params.stepsPerTick + 2) s = tick { s with schedule := [] }) ∧
  ∀ (s t : State) (m : Move) (rest : List Move), s.schedule = .tick :: m :: rest → s.batch = none →
    m = .tick ∨ (m ≠ .core ∧ s.params.keyDelivery = .batchBoundary) →
    tick { s with schedule := m :: rest } = .next t → t.fault = none →
    Host.Core.run core (s.params.stepsPerTick + 2) s = .next t

/-- The source's example S10 (R97): n batches bring the delay timer down by n, and no lower than 0. -/
def Obligations.TimersCountBatches : Prop :=
  ∀ (n : Nat) (s : State),
    (State.closeBatch^[n] s).dt.toNat = s.dt.toNat - n ∧ (State.closeBatch^[n] s).st.toNat = s.st.toNat - n
end

