-- ==== Sys2Proof/Laws/Decode.lean ====
section
/-! SUPPORT. The fields of each instruction format, and the bytes of a word. -/

namespace Sys2Proof

@[simp] theorem regBits_toFin (r : Reg) : (regBits r).toFin = r := rfl

/-! ### The fields of the formats of R72 -/

@[simp] theorem fieldH_formatNNN (h : BitVec 4) (nnn : Addr12) : fieldH (formatNNN h nnn) = h :=
  BitVec.extractLsb'_append_eq_left

@[simp] theorem fieldNNN_formatNNN (h : BitVec 4) (nnn : Addr12) : fieldNNN (formatNNN h nnn) = nnn :=
  BitVec.extractLsb'_append_eq_right

@[simp] theorem fieldH_formatXKK (h : BitVec 4) (x : Reg) (kk : Byte) : fieldH (formatXKK h x kk) = h :=
  fieldH_formatNNN h (regBits x ++ kk)

@[simp] theorem fieldX_formatXKK (h : BitVec 4) (x : Reg) (kk : Byte) : fieldX (formatXKK h x kk) = x :=
  congrArg BitVec.toFin <|
    (BitVec.extractLsb'_append_eq_of_add_le (xhi := h) (xlo := regBits x ++ kk) (by decide)).trans
      (BitVec.extractLsb'_append_eq_left (a := regBits x) (b := kk))

@[simp] theorem fieldKK_formatXKK (h : BitVec 4) (x : Reg) (kk : Byte) : fieldKK (formatXKK h x kk) = kk :=
  (BitVec.extractLsb'_append_eq_of_add_le (xhi := h) (xlo := regBits x ++ kk) (by decide)).trans
    (BitVec.extractLsb'_append_eq_right (a := regBits x) (b := kk))

@[simp] theorem fieldH_formatXYN (h : BitVec 4) (x y : Reg) (n : BitVec 4) : fieldH (formatXYN h x y n) = h :=
  fieldH_formatNNN h (regBits x ++ (regBits y ++ n))

@[simp] theorem fieldX_formatXYN (h : BitVec 4) (x y : Reg) (n : BitVec 4) : fieldX (formatXYN h x y n) = x :=
  fieldX_formatXKK h x (regBits y ++ n)

@[simp] theorem fieldKK_formatXYN (h : BitVec 4) (x y : Reg) (n : BitVec 4) :
    fieldKK (formatXYN h x y n) = regBits y ++ n :=
  fieldKK_formatXKK h x (regBits y ++ n)

/-- The field `y` is the high half of `kk` (R71). -/
theorem fieldY_eq_kk (op : Word) : fieldY op = ((fieldKK op).extractLsb' 4 4).toFin := by
  refine congrArg BitVec.toFin ?_
  ext i hi
  simp [fieldKK]

/-- The field `n` is the low half of `kk` (R71). -/
theorem fieldN_eq_kk (op : Word) : fieldN op = (fieldKK op).extractLsb' 0 4 := by
  ext i hi
  simp [fieldN, fieldKK]

@[simp] theorem fieldY_formatXYN (h : BitVec 4) (x y : Reg) (n : BitVec 4) : fieldY (formatXYN h x y n) = y := by
  rw [fieldY_eq_kk, fieldKK_formatXYN]
  exact congrArg BitVec.toFin (BitVec.extractLsb'_append_eq_left (a := regBits y) (b := n))

@[simp] theorem fieldN_formatXYN (h : BitVec 4) (x y : Reg) (n : BitVec 4) : fieldN (formatXYN h x y n) = n := by
  rw [fieldN_eq_kk, fieldKK_formatXYN]
  exact BitVec.extractLsb'_append_eq_right (a := regBits y) (b := n)

/-! ### A word is the format of its fields -/

theorem formatNNN_fields (op : Word) : formatNNN (fieldH op) (fieldNNN op) = op :=
  (BitVec.extractLsb'_append_extractLsb'_eq_extractLsb' rfl).trans BitVec.extractLsb'_eq_self

theorem formatXKK_fields (op : Word) : formatXKK (fieldH op) (fieldX op) (fieldKK op) = op :=
  (congrArg (fieldH op ++ ·) (BitVec.extractLsb'_append_extractLsb'_eq_extractLsb' (x := op) rfl)).trans
    (formatNNN_fields op)

theorem formatXYN_fields (op : Word) : formatXYN (fieldH op) (fieldX op) (fieldY op) (fieldN op) = op :=
  (congrArg (fun kk : Byte => formatXKK (fieldH op) (fieldX op) kk)
    (BitVec.extractLsb'_append_extractLsb'_eq_extractLsb' (x := op) rfl)).trans (formatXKK_fields op)

/-! ### Words and their bytes -/

/-- The word of the two bytes of a word is that word (R55). -/
theorem wordOfBytes_bytes (op : Word) : wordOfBytes (op.extractLsb' 8 8) (op.extractLsb' 0 8) = op :=
  (BitVec.extractLsb'_append_extractLsb'_eq_extractLsb' rfl).trans BitVec.extractLsb'_eq_self

/-- The value of the word of two bytes: the first byte is worth 256 times its value (R55). -/
theorem toNat_wordOfBytes (hi lo : Byte) : (wordOfBytes hi lo).toNat = hi.toNat * 256 + lo.toNat := by
  have h : (hi ++ lo).toNat = hi.toNat <<< 8 ||| lo.toNat := BitVec.toNat_append ..
  rw [← Nat.shiftLeft_add_eq_or_of_lt (by omega), Nat.shiftLeft_eq] at h
  exact h

/-- Decoding the bytes of a word is decoding the word. -/
theorem decode_bytesOfWord (op : Word) (rest : List Byte) :
    decode (bytesOfWord op ++ rest) =
      match decodeWord op with
      | some i => .ok (i, rest)
      | none => .error (.unrecognised op) := by
  cases h : decodeWord op <;> simp [decode, bytesOfWord, wordOfBytes_bytes, h]

/-- Decoding two bytes is decoding their word. -/
theorem decode_pair (hi lo : Byte) (rest : List Byte) :
    decode (hi :: lo :: rest) =
      match decodeWord (wordOfBytes hi lo) with
      | some i => .ok (i, rest)
      | none => .error (.unrecognised (wordOfBytes hi lo)) := by
  cases h : decodeWord (wordOfBytes hi lo) <;> simp [decode, h]

/-! ### Words as four digits, for the masks of R74 -/

/-- A word from its four hexadecimal digits, most significant first (R71). -/
def nibbles (a b c d : BitVec 4) : Word := a ++ (b ++ (c ++ d))

theorem nibbles_fields (op : Word) :
    nibbles (fieldH op) (regBits (fieldX op)) (regBits (fieldY op)) (fieldN op) = op :=
  formatXYN_fields op

theorem nibbles_and (a b c d a' b' c' d' : BitVec 4) :
    nibbles a b c d &&& nibbles a' b' c' d' = nibbles (a &&& a') (b &&& b') (c &&& c') (d &&& d') := by
  have h1 : (c ++ d) &&& (c' ++ d') = (c &&& c') ++ (d &&& d') := BitVec.and_append
  have h2 : (b ++ (c ++ d)) &&& (b' ++ (c' ++ d')) = (b &&& b') ++ ((c &&& c') ++ (d &&& d')) := by
    rw [← h1]; exact BitVec.and_append
  exact BitVec.and_append.trans (congrArg ((a &&& a') ++ ·) h2)

theorem nibbles_inj {a b c d a' b' c' d' : BitVec 4} :
    nibbles a b c d = nibbles a' b' c' d' ↔ a = a' ∧ b = b' ∧ c = c' ∧ d = d' := by
  constructor
  · intro e
    have e' : formatXYN a b.toFin c.toFin d = formatXYN a' b'.toFin c'.toFin d' := e
    have hb : regBits b.toFin = regBits b'.toFin := by simpa using congrArg (regBits ∘ fieldX) e'
    have hc : regBits c.toFin = regBits c'.toFin := by simpa using congrArg (regBits ∘ fieldY) e'
    exact ⟨by simpa using congrArg fieldH e', hb, hc, by simpa using congrArg fieldN e'⟩
  · rintro ⟨rfl, rfl, rfl, rfl⟩
    rfl

end Sys2Proof
end

