-- ==== Sys2Proof/Laws/State.lean ====
section
/-! SUPPORT. The fields of a state after each of the model's state updates, and what a register read gives after a
register write. -/

namespace Sys2Proof.Machine

@[simp] theorem State.setReg_mem (s : State) (r : Reg) (b : Byte) : (s.setReg r b).mem = s.mem := rfl
@[simp] theorem State.setReg_v (s : State) (r : Reg) (b : Byte) : (s.setReg r b).v = s.v.set r.val b := rfl
@[simp] theorem State.setReg_idx (s : State) (r : Reg) (b : Byte) : (s.setReg r b).idx = s.idx := rfl
@[simp] theorem State.setReg_pc (s : State) (r : Reg) (b : Byte) : (s.setReg r b).pc = s.pc := rfl
@[simp] theorem State.setReg_stack (s : State) (r : Reg) (b : Byte) : (s.setReg r b).stack = s.stack := rfl
@[simp] theorem State.setReg_dt (s : State) (r : Reg) (b : Byte) : (s.setReg r b).dt = s.dt := rfl
@[simp] theorem State.setReg_st (s : State) (r : Reg) (b : Byte) : (s.setReg r b).st = s.st := rfl
@[simp] theorem State.setReg_wait (s : State) (r : Reg) (b : Byte) : (s.setReg r b).wait = s.wait := rfl
@[simp] theorem State.setReg_fault (s : State) (r : Reg) (b : Byte) : (s.setReg r b).fault = s.fault := rfl
@[simp] theorem State.setReg_fb (s : State) (r : Reg) (b : Byte) : (s.setReg r b).fb = s.fb := rfl
@[simp] theorem State.setReg_visible (s : State) (r : Reg) (b : Byte) : (s.setReg r b).visible = s.visible := rfl
@[simp] theorem State.setReg_keys (s : State) (r : Reg) (b : Byte) : (s.setReg r b).keys = s.keys := rfl
@[simp] theorem State.setReg_tone (s : State) (r : Reg) (b : Byte) : (s.setReg r b).tone = s.tone := rfl
@[simp] theorem State.setReg_params (s : State) (r : Reg) (b : Byte) : (s.setReg r b).params = s.params := rfl
@[simp] theorem State.setReg_batch (s : State) (r : Reg) (b : Byte) : (s.setReg r b).batch = s.batch := rfl
@[simp] theorem State.setReg_schedule (s : State) (r : Reg) (b : Byte) : (s.setReg r b).schedule = s.schedule := rfl
@[simp] theorem State.setReg_draws (s : State) (r : Reg) (b : Byte) : (s.setReg r b).draws = s.draws := rfl
@[simp] theorem State.setReg_requests (s : State) (r : Reg) (b : Byte) : (s.setReg r b).requests = s.requests := rfl

@[simp] theorem State.setIdx_mem (s : State) (w : Word) : (s.setIdx w).mem = s.mem := rfl
@[simp] theorem State.setIdx_v (s : State) (w : Word) : (s.setIdx w).v = s.v := rfl
@[simp] theorem State.setIdx_idx (s : State) (w : Word) : (s.setIdx w).idx = w := rfl
@[simp] theorem State.setIdx_pc (s : State) (w : Word) : (s.setIdx w).pc = s.pc := rfl
@[simp] theorem State.setIdx_stack (s : State) (w : Word) : (s.setIdx w).stack = s.stack := rfl
@[simp] theorem State.setIdx_dt (s : State) (w : Word) : (s.setIdx w).dt = s.dt := rfl
@[simp] theorem State.setIdx_st (s : State) (w : Word) : (s.setIdx w).st = s.st := rfl
@[simp] theorem State.setIdx_wait (s : State) (w : Word) : (s.setIdx w).wait = s.wait := rfl
@[simp] theorem State.setIdx_fault (s : State) (w : Word) : (s.setIdx w).fault = s.fault := rfl
@[simp] theorem State.setIdx_fb (s : State) (w : Word) : (s.setIdx w).fb = s.fb := rfl
@[simp] theorem State.setIdx_visible (s : State) (w : Word) : (s.setIdx w).visible = s.visible := rfl
@[simp] theorem State.setIdx_keys (s : State) (w : Word) : (s.setIdx w).keys = s.keys := rfl
@[simp] theorem State.setIdx_tone (s : State) (w : Word) : (s.setIdx w).tone = s.tone := rfl
@[simp] theorem State.setIdx_params (s : State) (w : Word) : (s.setIdx w).params = s.params := rfl
@[simp] theorem State.setIdx_batch (s : State) (w : Word) : (s.setIdx w).batch = s.batch := rfl
@[simp] theorem State.setIdx_schedule (s : State) (w : Word) : (s.setIdx w).schedule = s.schedule := rfl
@[simp] theorem State.setIdx_draws (s : State) (w : Word) : (s.setIdx w).draws = s.draws := rfl
@[simp] theorem State.setIdx_requests (s : State) (w : Word) : (s.setIdx w).requests = s.requests := rfl

@[simp] theorem State.setPc_mem (s : State) (w : Word) : (s.setPc w).mem = s.mem := rfl
@[simp] theorem State.setPc_v (s : State) (w : Word) : (s.setPc w).v = s.v := rfl
@[simp] theorem State.setPc_idx (s : State) (w : Word) : (s.setPc w).idx = s.idx := rfl
@[simp] theorem State.setPc_pc (s : State) (w : Word) : (s.setPc w).pc = w := rfl
@[simp] theorem State.setPc_stack (s : State) (w : Word) : (s.setPc w).stack = s.stack := rfl
@[simp] theorem State.setPc_dt (s : State) (w : Word) : (s.setPc w).dt = s.dt := rfl
@[simp] theorem State.setPc_st (s : State) (w : Word) : (s.setPc w).st = s.st := rfl
@[simp] theorem State.setPc_wait (s : State) (w : Word) : (s.setPc w).wait = s.wait := rfl
@[simp] theorem State.setPc_fault (s : State) (w : Word) : (s.setPc w).fault = s.fault := rfl
@[simp] theorem State.setPc_fb (s : State) (w : Word) : (s.setPc w).fb = s.fb := rfl
@[simp] theorem State.setPc_visible (s : State) (w : Word) : (s.setPc w).visible = s.visible := rfl
@[simp] theorem State.setPc_keys (s : State) (w : Word) : (s.setPc w).keys = s.keys := rfl
@[simp] theorem State.setPc_tone (s : State) (w : Word) : (s.setPc w).tone = s.tone := rfl
@[simp] theorem State.setPc_params (s : State) (w : Word) : (s.setPc w).params = s.params := rfl
@[simp] theorem State.setPc_batch (s : State) (w : Word) : (s.setPc w).batch = s.batch := rfl
@[simp] theorem State.setPc_schedule (s : State) (w : Word) : (s.setPc w).schedule = s.schedule := rfl
@[simp] theorem State.setPc_draws (s : State) (w : Word) : (s.setPc w).draws = s.draws := rfl
@[simp] theorem State.setPc_requests (s : State) (w : Word) : (s.setPc w).requests = s.requests := rfl

@[simp] theorem State.setDt_mem (s : State) (b : Byte) : (s.setDt b).mem = s.mem := rfl
@[simp] theorem State.setDt_v (s : State) (b : Byte) : (s.setDt b).v = s.v := rfl
@[simp] theorem State.setDt_idx (s : State) (b : Byte) : (s.setDt b).idx = s.idx := rfl
@[simp] theorem State.setDt_pc (s : State) (b : Byte) : (s.setDt b).pc = s.pc := rfl
@[simp] theorem State.setDt_stack (s : State) (b : Byte) : (s.setDt b).stack = s.stack := rfl
@[simp] theorem State.setDt_dt (s : State) (b : Byte) : (s.setDt b).dt = b := rfl
@[simp] theorem State.setDt_st (s : State) (b : Byte) : (s.setDt b).st = s.st := rfl
@[simp] theorem State.setDt_wait (s : State) (b : Byte) : (s.setDt b).wait = s.wait := rfl
@[simp] theorem State.setDt_fault (s : State) (b : Byte) : (s.setDt b).fault = s.fault := rfl
@[simp] theorem State.setDt_fb (s : State) (b : Byte) : (s.setDt b).fb = s.fb := rfl
@[simp] theorem State.setDt_visible (s : State) (b : Byte) : (s.setDt b).visible = s.visible := rfl
@[simp] theorem State.setDt_keys (s : State) (b : Byte) : (s.setDt b).keys = s.keys := rfl
@[simp] theorem State.setDt_tone (s : State) (b : Byte) : (s.setDt b).tone = s.tone := rfl
@[simp] theorem State.setDt_params (s : State) (b : Byte) : (s.setDt b).params = s.params := rfl
@[simp] theorem State.setDt_batch (s : State) (b : Byte) : (s.setDt b).batch = s.batch := rfl
@[simp] theorem State.setDt_schedule (s : State) (b : Byte) : (s.setDt b).schedule = s.schedule := rfl
@[simp] theorem State.setDt_draws (s : State) (b : Byte) : (s.setDt b).draws = s.draws := rfl
@[simp] theorem State.setDt_requests (s : State) (b : Byte) : (s.setDt b).requests = s.requests := rfl

@[simp] theorem State.setSt_mem (s : State) (b : Byte) : (s.setSt b).mem = s.mem := rfl
@[simp] theorem State.setSt_v (s : State) (b : Byte) : (s.setSt b).v = s.v := rfl
@[simp] theorem State.setSt_idx (s : State) (b : Byte) : (s.setSt b).idx = s.idx := rfl
@[simp] theorem State.setSt_pc (s : State) (b : Byte) : (s.setSt b).pc = s.pc := rfl
@[simp] theorem State.setSt_stack (s : State) (b : Byte) : (s.setSt b).stack = s.stack := rfl
@[simp] theorem State.setSt_dt (s : State) (b : Byte) : (s.setSt b).dt = s.dt := rfl
@[simp] theorem State.setSt_st (s : State) (b : Byte) : (s.setSt b).st = b := rfl
@[simp] theorem State.setSt_wait (s : State) (b : Byte) : (s.setSt b).wait = s.wait := rfl
@[simp] theorem State.setSt_fault (s : State) (b : Byte) : (s.setSt b).fault = s.fault := rfl
@[simp] theorem State.setSt_fb (s : State) (b : Byte) : (s.setSt b).fb = s.fb := rfl
@[simp] theorem State.setSt_visible (s : State) (b : Byte) : (s.setSt b).visible = s.visible := rfl
@[simp] theorem State.setSt_keys (s : State) (b : Byte) : (s.setSt b).keys = s.keys := rfl
@[simp] theorem State.setSt_tone (s : State) (b : Byte) : (s.setSt b).tone = s.tone := rfl
@[simp] theorem State.setSt_params (s : State) (b : Byte) : (s.setSt b).params = s.params := rfl
@[simp] theorem State.setSt_batch (s : State) (b : Byte) : (s.setSt b).batch = s.batch := rfl
@[simp] theorem State.setSt_schedule (s : State) (b : Byte) : (s.setSt b).schedule = s.schedule := rfl
@[simp] theorem State.setSt_draws (s : State) (b : Byte) : (s.setSt b).draws = s.draws := rfl
@[simp] theorem State.setSt_requests (s : State) (b : Byte) : (s.setSt b).requests = s.requests := rfl

@[simp] theorem State.waitForKey_mem (s : State) (r : Reg) : (s.waitForKey r).mem = s.mem := rfl
@[simp] theorem State.waitForKey_v (s : State) (r : Reg) : (s.waitForKey r).v = s.v := rfl
@[simp] theorem State.waitForKey_idx (s : State) (r : Reg) : (s.waitForKey r).idx = s.idx := rfl
@[simp] theorem State.waitForKey_pc (s : State) (r : Reg) : (s.waitForKey r).pc = s.pc := rfl
@[simp] theorem State.waitForKey_stack (s : State) (r : Reg) : (s.waitForKey r).stack = s.stack := rfl
@[simp] theorem State.waitForKey_dt (s : State) (r : Reg) : (s.waitForKey r).dt = s.dt := rfl
@[simp] theorem State.waitForKey_st (s : State) (r : Reg) : (s.waitForKey r).st = s.st := rfl
@[simp] theorem State.waitForKey_wait (s : State) (r : Reg) : (s.waitForKey r).wait = some r := rfl
@[simp] theorem State.waitForKey_fault (s : State) (r : Reg) : (s.waitForKey r).fault = s.fault := rfl
@[simp] theorem State.waitForKey_fb (s : State) (r : Reg) : (s.waitForKey r).fb = s.fb := rfl
@[simp] theorem State.waitForKey_visible (s : State) (r : Reg) : (s.waitForKey r).visible = s.visible := rfl
@[simp] theorem State.waitForKey_keys (s : State) (r : Reg) : (s.waitForKey r).keys = s.keys := rfl
@[simp] theorem State.waitForKey_tone (s : State) (r : Reg) : (s.waitForKey r).tone = s.tone := rfl
@[simp] theorem State.waitForKey_params (s : State) (r : Reg) : (s.waitForKey r).params = s.params := rfl
@[simp] theorem State.waitForKey_batch (s : State) (r : Reg) : (s.waitForKey r).batch = s.batch := rfl
@[simp] theorem State.waitForKey_schedule (s : State) (r : Reg) : (s.waitForKey r).schedule = s.schedule := rfl
@[simp] theorem State.waitForKey_draws (s : State) (r : Reg) : (s.waitForKey r).draws = s.draws := rfl
@[simp] theorem State.waitForKey_requests (s : State) (r : Reg) : (s.waitForKey r).requests = s.requests := rfl

@[simp] theorem State.advance_mem (s : State) : (s.advance).mem = s.mem := rfl
@[simp] theorem State.advance_v (s : State) : (s.advance).v = s.v := rfl
@[simp] theorem State.advance_idx (s : State) : (s.advance).idx = s.idx := rfl
@[simp] theorem State.advance_pc (s : State) : (s.advance).pc = s.pc + 2#16 := rfl
@[simp] theorem State.advance_stack (s : State) : (s.advance).stack = s.stack := rfl
@[simp] theorem State.advance_dt (s : State) : (s.advance).dt = s.dt := rfl
@[simp] theorem State.advance_st (s : State) : (s.advance).st = s.st := rfl
@[simp] theorem State.advance_wait (s : State) : (s.advance).wait = s.wait := rfl
@[simp] theorem State.advance_fault (s : State) : (s.advance).fault = s.fault := rfl
@[simp] theorem State.advance_fb (s : State) : (s.advance).fb = s.fb := rfl
@[simp] theorem State.advance_visible (s : State) : (s.advance).visible = s.visible := rfl
@[simp] theorem State.advance_keys (s : State) : (s.advance).keys = s.keys := rfl
@[simp] theorem State.advance_tone (s : State) : (s.advance).tone = s.tone := rfl
@[simp] theorem State.advance_params (s : State) : (s.advance).params = s.params := rfl
@[simp] theorem State.advance_batch (s : State) : (s.advance).batch = s.batch := rfl
@[simp] theorem State.advance_schedule (s : State) : (s.advance).schedule = s.schedule := rfl
@[simp] theorem State.advance_draws (s : State) : (s.advance).draws = s.draws := rfl
@[simp] theorem State.advance_requests (s : State) : (s.advance).requests = s.requests := rfl

@[simp] theorem State.raise_mem (s : State) (c : Cause) : (s.raise c).mem = s.mem := rfl
@[simp] theorem State.raise_v (s : State) (c : Cause) : (s.raise c).v = s.v := rfl
@[simp] theorem State.raise_idx (s : State) (c : Cause) : (s.raise c).idx = s.idx := rfl
@[simp] theorem State.raise_pc (s : State) (c : Cause) : (s.raise c).pc = s.pc := rfl
@[simp] theorem State.raise_stack (s : State) (c : Cause) : (s.raise c).stack = s.stack := rfl
@[simp] theorem State.raise_dt (s : State) (c : Cause) : (s.raise c).dt = s.dt := rfl
@[simp] theorem State.raise_st (s : State) (c : Cause) : (s.raise c).st = s.st := rfl
@[simp] theorem State.raise_wait (s : State) (c : Cause) : (s.raise c).wait = s.wait := rfl
@[simp] theorem State.raise_fault (s : State) (c : Cause) : (s.raise c).fault = some c := rfl
@[simp] theorem State.raise_fb (s : State) (c : Cause) : (s.raise c).fb = s.fb := rfl
@[simp] theorem State.raise_visible (s : State) (c : Cause) : (s.raise c).visible = s.visible := rfl
@[simp] theorem State.raise_keys (s : State) (c : Cause) : (s.raise c).keys = s.keys := rfl
@[simp] theorem State.raise_tone (s : State) (c : Cause) : (s.raise c).tone = s.tone := rfl
@[simp] theorem State.raise_params (s : State) (c : Cause) : (s.raise c).params = s.params := rfl
@[simp] theorem State.raise_batch (s : State) (c : Cause) : (s.raise c).batch = s.batch := rfl
@[simp] theorem State.raise_schedule (s : State) (c : Cause) : (s.raise c).schedule = s.schedule := rfl
@[simp] theorem State.raise_draws (s : State) (c : Cause) : (s.raise c).draws = s.draws := rfl
@[simp] theorem State.raise_requests (s : State) (c : Cause) : (s.raise c).requests = s.requests := rfl

@[simp] theorem State.clearDisplay_mem (s : State) : (s.clearDisplay).mem = s.mem := rfl
@[simp] theorem State.clearDisplay_v (s : State) : (s.clearDisplay).v = s.v := rfl
@[simp] theorem State.clearDisplay_idx (s : State) : (s.clearDisplay).idx = s.idx := rfl
@[simp] theorem State.clearDisplay_pc (s : State) : (s.clearDisplay).pc = s.pc := rfl
@[simp] theorem State.clearDisplay_stack (s : State) : (s.clearDisplay).stack = s.stack := rfl
@[simp] theorem State.clearDisplay_dt (s : State) : (s.clearDisplay).dt = s.dt := rfl
@[simp] theorem State.clearDisplay_st (s : State) : (s.clearDisplay).st = s.st := rfl
@[simp] theorem State.clearDisplay_wait (s : State) : (s.clearDisplay).wait = s.wait := rfl
@[simp] theorem State.clearDisplay_fault (s : State) : (s.clearDisplay).fault = s.fault := rfl
@[simp] theorem State.clearDisplay_fb (s : State) : (s.clearDisplay).fb = Frame.clear := rfl
@[simp] theorem State.clearDisplay_visible (s : State) : (s.clearDisplay).visible = s.visible := rfl
@[simp] theorem State.clearDisplay_keys (s : State) : (s.clearDisplay).keys = s.keys := rfl
@[simp] theorem State.clearDisplay_tone (s : State) : (s.clearDisplay).tone = s.tone := rfl
@[simp] theorem State.clearDisplay_params (s : State) : (s.clearDisplay).params = s.params := rfl
@[simp] theorem State.clearDisplay_batch (s : State) : (s.clearDisplay).batch = s.batch := rfl
@[simp] theorem State.clearDisplay_schedule (s : State) : (s.clearDisplay).schedule = s.schedule := rfl
@[simp] theorem State.clearDisplay_draws (s : State) : (s.clearDisplay).draws = s.draws := rfl
@[simp] theorem State.clearDisplay_requests (s : State) : (s.clearDisplay).requests = .clearDisplay :: s.requests := rfl

@[simp] theorem State.present_mem (s : State) : (s.present).mem = s.mem := rfl
@[simp] theorem State.present_v (s : State) : (s.present).v = s.v := rfl
@[simp] theorem State.present_idx (s : State) : (s.present).idx = s.idx := rfl
@[simp] theorem State.present_pc (s : State) : (s.present).pc = s.pc := rfl
@[simp] theorem State.present_stack (s : State) : (s.present).stack = s.stack := rfl
@[simp] theorem State.present_dt (s : State) : (s.present).dt = s.dt := rfl
@[simp] theorem State.present_st (s : State) : (s.present).st = s.st := rfl
@[simp] theorem State.present_wait (s : State) : (s.present).wait = s.wait := rfl
@[simp] theorem State.present_fault (s : State) : (s.present).fault = s.fault := rfl
@[simp] theorem State.present_fb (s : State) : (s.present).fb = s.fb := rfl
@[simp] theorem State.present_visible (s : State) : (s.present).visible = s.fb := rfl
@[simp] theorem State.present_keys (s : State) : (s.present).keys = s.keys := rfl
@[simp] theorem State.present_tone (s : State) : (s.present).tone = s.tone := rfl
@[simp] theorem State.present_params (s : State) : (s.present).params = s.params := rfl
@[simp] theorem State.present_batch (s : State) : (s.present).batch = s.batch := rfl
@[simp] theorem State.present_schedule (s : State) : (s.present).schedule = s.schedule := rfl
@[simp] theorem State.present_draws (s : State) : (s.present).draws = s.draws := rfl
@[simp] theorem State.present_requests (s : State) : (s.present).requests = .present :: s.requests := rfl

@[simp] theorem State.decayTimers_mem (s : State) : (s.decayTimers).mem = s.mem := rfl
@[simp] theorem State.decayTimers_v (s : State) : (s.decayTimers).v = s.v := rfl
@[simp] theorem State.decayTimers_idx (s : State) : (s.decayTimers).idx = s.idx := rfl
@[simp] theorem State.decayTimers_pc (s : State) : (s.decayTimers).pc = s.pc := rfl
@[simp] theorem State.decayTimers_stack (s : State) : (s.decayTimers).stack = s.stack := rfl
@[simp] theorem State.decayTimers_dt (s : State) : (s.decayTimers).dt = decay s.dt := rfl
@[simp] theorem State.decayTimers_st (s : State) : (s.decayTimers).st = decay s.st := rfl
@[simp] theorem State.decayTimers_wait (s : State) : (s.decayTimers).wait = s.wait := rfl
@[simp] theorem State.decayTimers_fault (s : State) : (s.decayTimers).fault = s.fault := rfl
@[simp] theorem State.decayTimers_fb (s : State) : (s.decayTimers).fb = s.fb := rfl
@[simp] theorem State.decayTimers_visible (s : State) : (s.decayTimers).visible = s.visible := rfl
@[simp] theorem State.decayTimers_keys (s : State) : (s.decayTimers).keys = s.keys := rfl
@[simp] theorem State.decayTimers_tone (s : State) : (s.decayTimers).tone = s.tone := rfl
@[simp] theorem State.decayTimers_params (s : State) : (s.decayTimers).params = s.params := rfl
@[simp] theorem State.decayTimers_batch (s : State) : (s.decayTimers).batch = s.batch := rfl
@[simp] theorem State.decayTimers_schedule (s : State) : (s.decayTimers).schedule = s.schedule := rfl
@[simp] theorem State.decayTimers_draws (s : State) : (s.decayTimers).draws = s.draws := rfl
@[simp] theorem State.decayTimers_requests (s : State) : (s.decayTimers).requests = s.requests := rfl

@[simp] theorem State.keyDown_mem (s : State) (k : Key) : (s.keyDown k).mem = s.mem := rfl
@[simp] theorem State.keyDown_v (s : State) (k : Key) : (s.keyDown k).v = s.v := rfl
@[simp] theorem State.keyDown_idx (s : State) (k : Key) : (s.keyDown k).idx = s.idx := rfl
@[simp] theorem State.keyDown_pc (s : State) (k : Key) : (s.keyDown k).pc = s.pc := rfl
@[simp] theorem State.keyDown_stack (s : State) (k : Key) : (s.keyDown k).stack = s.stack := rfl
@[simp] theorem State.keyDown_dt (s : State) (k : Key) : (s.keyDown k).dt = s.dt := rfl
@[simp] theorem State.keyDown_st (s : State) (k : Key) : (s.keyDown k).st = s.st := rfl
@[simp] theorem State.keyDown_wait (s : State) (k : Key) : (s.keyDown k).wait = s.wait := rfl
@[simp] theorem State.keyDown_fault (s : State) (k : Key) : (s.keyDown k).fault = s.fault := rfl
@[simp] theorem State.keyDown_fb (s : State) (k : Key) : (s.keyDown k).fb = s.fb := rfl
@[simp] theorem State.keyDown_visible (s : State) (k : Key) : (s.keyDown k).visible = s.visible := rfl
@[simp] theorem State.keyDown_keys (s : State) (k : Key) : (s.keyDown k).keys = s.keys.set k.val true := rfl
@[simp] theorem State.keyDown_tone (s : State) (k : Key) : (s.keyDown k).tone = s.tone := rfl
@[simp] theorem State.keyDown_params (s : State) (k : Key) : (s.keyDown k).params = s.params := rfl
@[simp] theorem State.keyDown_batch (s : State) (k : Key) : (s.keyDown k).batch = s.batch := rfl
@[simp] theorem State.keyDown_schedule (s : State) (k : Key) : (s.keyDown k).schedule = s.schedule := rfl
@[simp] theorem State.keyDown_draws (s : State) (k : Key) : (s.keyDown k).draws = s.draws := rfl
@[simp] theorem State.keyDown_requests (s : State) (k : Key) : (s.keyDown k).requests = s.requests := rfl

/-! ### Register reads -/

/-- A register read, as an entry of the register file. -/
theorem State.reg_eq (s : State) (r : Reg) : s.reg r = s.v[r.val] := rfl

/-- Two states with the same register file read alike. -/
theorem State.reg_congr {s t : State} (h : t.v = s.v) (r : Reg) : t.reg r = s.reg r := by
  simp [State.reg_eq, h]

@[simp] theorem State.setReg_reg (s : State) (r q : Reg) (b : Byte) :
    (s.setReg r b).reg q = if q = r then b else s.reg q := by
  simp only [State.reg_eq, State.setReg_v, Vector.getElem_set, Fin.val_inj]
  simp [eq_comm]

@[simp] theorem State.setIdx_reg (s : State) (w : Word) (q : Reg) : (s.setIdx w).reg q = s.reg q := rfl
@[simp] theorem State.setPc_reg (s : State) (w : Word) (q : Reg) : (s.setPc w).reg q = s.reg q := rfl
@[simp] theorem State.setDt_reg (s : State) (b : Byte) (q : Reg) : (s.setDt b).reg q = s.reg q := rfl
@[simp] theorem State.setSt_reg (s : State) (b : Byte) (q : Reg) : (s.setSt b).reg q = s.reg q := rfl
@[simp] theorem State.waitForKey_reg (s : State) (r : Reg) (q : Reg) : (s.waitForKey r).reg q = s.reg q := rfl
@[simp] theorem State.advance_reg (s : State) (q : Reg) : (s.advance).reg q = s.reg q := rfl
@[simp] theorem State.raise_reg (s : State) (c : Cause) (q : Reg) : (s.raise c).reg q = s.reg q := rfl
@[simp] theorem State.clearDisplay_reg (s : State) (q : Reg) : (s.clearDisplay).reg q = s.reg q := rfl
@[simp] theorem State.present_reg (s : State) (q : Reg) : (s.present).reg q = s.reg q := rfl
@[simp] theorem State.decayTimers_reg (s : State) (q : Reg) : (s.decayTimers).reg q = s.reg q := rfl
@[simp] theorem State.keyDown_reg (s : State) (k : Key) (q : Reg) : (s.keyDown k).reg q = s.reg q := rfl

end Sys2Proof.Machine
end

