-- ==== Sys2Proof/Laws/Memory.lean ====
section
/-! SUPPORT. The laws of memory: read after write, the canonical form, blocks of bytes, and what the checked
accesses of the machine answer. -/

namespace Sys2Proof.Machine

/-! ### One byte -/

@[simp] theorem Memory.read_nil (a : Nat) : Memory.read [] a = Memory.unlisted a := rfl

@[simp] theorem Memory.read_cons (k : Nat) (c : Byte) (m : Memory) (a : Nat) :
    Memory.read ((k, c) :: m) a = if a = k then c else Memory.read m a := rfl

/-- Entries all above an address leave it unlisted. -/
theorem Memory.read_of_lt {m : Memory} {a : Nat} (h : ∀ e ∈ m, a < e.1) :
    Memory.read m a = Memory.unlisted a := by
  induction m with
  | nil => rfl
  | cons e m ih =>
    obtain ⟨k, c⟩ := e
    have hk : a ≠ k := Nat.ne_of_lt (h (k, c) (by simp))
    simp [hk, ih fun e he => h e (by simp [he])]

/-- Putting an entry in front of memory that does not list its address. -/
theorem Memory.read_put {m : Memory} {a : Nat} (h : ∀ e ∈ m, a < e.1) (b : Byte) (a' : Nat) :
    Memory.read (Memory.put a b m) a' = if a' = a then b else Memory.read m a' := by
  unfold Memory.put
  by_cases hb : b = Memory.unlisted a
  · by_cases ha : a' = a
    · simp [hb, ha, Memory.read_of_lt h]
    · simp [hb, ha]
  · simp [hb]

/-- The canonical form of a list with a first entry. -/
theorem Memory.wf_cons {k : Nat} {c : Byte} {m : Memory} :
    Memory.wf ((k, c) :: m) = true ↔
      k < memSize ∧ c ≠ Memory.unlisted k ∧ (∀ e ∈ m, k < e.1) ∧ Memory.wf m = true := by
  simp [Memory.wf, and_assoc]

/-- Where every byte of the entries of `Memory.write` comes from. -/
theorem Memory.mem_write {m : Memory} {a : Nat} {b : Byte} {e : Host.Cell} (h : e ∈ Memory.write m a b) :
    e = (a, b) ∨ e ∈ m := by
  induction m with
  | nil =>
    simp only [Memory.write, Memory.put] at h
    split at h <;> simp_all
  | cons d m ih =>
    obtain ⟨k, c⟩ := d
    simp only [Memory.write, Memory.put] at h
    split at h
    · split at h <;> simp_all
    · split at h
      · split at h
        · simp [h]
        · rcases List.mem_cons.mp h with h | h <;> simp [h]
      · rcases List.mem_cons.mp h with h | h
        · simp [h]
        · rcases ih h with h | h <;> simp [h]

/-- A write inside the address space keeps the canonical form. -/
theorem Memory.write_wf {m : Memory} (h : Memory.wf m = true) {a : Nat} (ha : a < memSize) (b : Byte) :
    Memory.wf (Memory.write m a b) = true := by
  induction m with
  | nil =>
    simp only [Memory.write, Memory.put]
    split
    · rfl
    · rename_i hb
      exact Memory.wf_cons.mpr ⟨ha, hb, by simp, rfl⟩
  | cons d m ih =>
    obtain ⟨k, c⟩ := d
    obtain ⟨hk, hc, hlt, hm⟩ := Memory.wf_cons.mp h
    simp only [Memory.write, Memory.put]
    split
    · rename_i hak
      split
      · exact h
      · rename_i hb
        refine Memory.wf_cons.mpr ⟨ha, hb, fun e he => ?_, h⟩
        rcases List.mem_cons.mp he with rfl | he
        · exact hak
        · exact Nat.lt_trans hak (hlt e he)
    · split
      · rename_i hak
        split
        · exact hm
        · rename_i hb
          exact Memory.wf_cons.mpr ⟨ha, hb, by simpa [hak] using hlt, hm⟩
      · rename_i hnlt hne
        refine Memory.wf_cons.mpr ⟨hk, hc, fun e he => ?_, ih hm⟩
        rcases Memory.mem_write he with rfl | he
        · exact Nat.lt_of_le_of_ne (Nat.le_of_not_lt hnlt) (Ne.symm hne)
        · exact hlt e he

/-- Read after write, in canonical memory: the byte written, and every other byte as before. -/
theorem Memory.read_write {m : Memory} (h : Memory.wf m = true) (a : Nat) (b : Byte) (a' : Nat) :
    Memory.read (Memory.write m a b) a' = if a' = a then b else Memory.read m a' := by
  induction m with
  | nil => exact Memory.read_put (by simp) b a'
  | cons d m ih =>
    obtain ⟨k, c⟩ := d
    obtain ⟨_, _, hlt, hm⟩ := Memory.wf_cons.mp h
    simp only [Memory.write]
    split
    · rename_i hak
      refine Memory.read_put (fun e he => ?_) b a'
      rcases List.mem_cons.mp he with rfl | he
      · exact hak
      · exact Nat.lt_trans hak (hlt e he)
    · split
      · rename_i hak
        subst hak
        rw [Memory.read_put hlt]
        simp only [Memory.read_cons]
        split <;> rfl
      · rename_i hne
        simp only [Memory.read_cons, ih hm]
        by_cases hk : a' = k
        · have : a' ≠ a := fun h' => hne (h'.symm.trans hk)
          simp [hk, Ne.symm hne]
        · simp [hk]

/-! ### Canonical memories that read alike are equal -/

/-- In canonical memory an address below every entry is unlisted, and a listed one does not read so. -/
theorem Memory.read_head_ne {k : Nat} {c : Byte} {m : Memory} (h : Memory.wf ((k, c) :: m) = true) :
    Memory.read ((k, c) :: m) k ≠ Memory.unlisted k := by
  simpa using (Memory.wf_cons.mp h).2.1

/-- Two canonical memories that read alike at every address are the same list. -/
theorem Memory.ext_of_wf {m m' : Memory} (h : Memory.wf m = true) (h' : Memory.wf m' = true)
    (heq : ∀ a, Memory.read m a = Memory.read m' a) : m = m' := by
  induction m generalizing m' with
  | nil =>
    cases m' with
    | nil => rfl
    | cons e m' => exact absurd (heq e.1).symm (Memory.read_head_ne h')
  | cons e m ih =>
    obtain ⟨k, c⟩ := e
    obtain ⟨_, hc, hlt, hm⟩ := Memory.wf_cons.mp h
    cases m' with
    | nil => exact absurd (heq k) (Memory.read_head_ne h)
    | cons e' m' =>
      obtain ⟨k', c'⟩ := e'
      obtain ⟨_, hc', hlt', hm'⟩ := Memory.wf_cons.mp h'
      have hk : k = k' := by
        rcases Nat.lt_trichotomy k k' with hlt1 | rfl | hgt
        · have := heq k
          rw [Memory.read_of_lt (m := (k', c') :: m')] at this
          · exact absurd this (Memory.read_head_ne h)
          · intro e he
            rcases List.mem_cons.mp he with rfl | he
            · exact hlt1
            · exact Nat.lt_trans hlt1 (hlt' e he)
        · rfl
        · have := heq k'
          rw [Memory.read_of_lt (m := (k, c) :: m)] at this
          · exact absurd this.symm (Memory.read_head_ne h')
          · intro e he
            rcases List.mem_cons.mp he with rfl | he
            · exact hgt
            · exact Nat.lt_trans hgt (hlt e he)
      subst hk
      have hcc : c = c' := by simpa using heq k
      subst hcc
      rw [ih hm hm' fun a => ?_]
      by_cases ha : a = k
      · subst ha
        rw [Memory.read_of_lt hlt, Memory.read_of_lt hlt']
      · simpa [ha] using heq a

/-! ### Blocks of bytes -/

@[simp] theorem Memory.length_readBytes (m : Memory) (a n : Nat) : (Memory.readBytes m a n).length = n := by
  induction n generalizing a with
  | zero => rfl
  | succ n ih => simp [Memory.readBytes, ih]

/-- Byte k of a block read is the byte at the address k further on. -/
theorem Memory.getElem_readBytes (m : Memory) (a n k : Nat) (h : k < (Memory.readBytes m a n).length) :
    (Memory.readBytes m a n)[k] = Memory.read m (a + k) := by
  induction n generalizing a k with
  | zero => simp [Memory.readBytes] at h
  | succ n ih =>
    cases k with
    | zero => rfl
    | succ k =>
      simp only [Memory.readBytes, List.getElem_cons_succ]
      rw [ih]
      congr 1
      omega

/-- A block write inside the address space keeps the canonical form. -/
theorem Memory.writeBytes_wf {m : Memory} (h : Memory.wf m = true) {a : Nat} {bytes : List Byte}
    (ha : a + bytes.length ≤ memSize) : Memory.wf (Memory.writeBytes m a bytes) = true := by
  induction bytes generalizing m a with
  | nil => exact h
  | cons b bs ih =>
    simp only [List.length_cons] at ha
    exact ih (Memory.write_wf h (by omega) b) (by omega)

/-- A read after a block write, in canonical memory: the block's byte inside the block, the old byte outside. -/
theorem Memory.read_writeBytes {m : Memory} (h : Memory.wf m = true) {a : Nat} {bytes : List Byte}
    (ha : a + bytes.length ≤ memSize) (a' : Nat) :
    Memory.read (Memory.writeBytes m a bytes) a' =
      if a ≤ a' ∧ a' < a + bytes.length then bytes.getD (a' - a) 0x00#8 else Memory.read m a' := by
  induction bytes generalizing m a with
  | nil =>
    simp only [Memory.writeBytes, List.length_nil, Nat.add_zero]
    rw [if_neg (by omega)]
  | cons b bs ih =>
    simp only [List.length_cons] at ha ⊢
    rw [Memory.writeBytes, ih (Memory.write_wf h (by omega) b) (by omega), Memory.read_write h]
    by_cases h1 : a' = a
    · subst h1
      rw [if_neg (by omega), if_pos rfl, if_pos (by omega)]
      simp
    · rw [if_neg h1]
      by_cases h2 : a + 1 ≤ a' ∧ a' < a + 1 + bs.length
      · rw [if_pos h2, if_pos (by omega)]
        obtain ⟨k, rfl⟩ : ∃ k, a' = a + 1 + k := ⟨a' - (a + 1), by omega⟩
        simp [show a + 1 + k - a = k + 1 by omega]
      · rw [if_neg h2, if_neg (by omega)]

/-- The memory a load leaves is canonical. -/
theorem Memory.ofImage_wf {image : List Byte} (h : image.length ≤ maxProgram) :
    Memory.wf (Memory.ofImage image) = true :=
  Memory.writeBytes_wf rfl (by unfold maxProgram at h; unfold programBase memSize; omega)

/-! ### The checked accesses -/

theorem inBounds_iff {base len : Nat} : inBounds base len = true ↔ len = 0 ∨ base + len ≤ memSize := by
  simp [inBounds]

/-- What `memRead` answers: the bytes, or the fault of the span. -/
theorem State.memRead_eq (s : State) (base len : Nat) :
    s.memRead base len =
      if len = 0 ∨ base + len ≤ memSize then .ok (Memory.readBytes s.mem base len)
      else .error (outOfRange base) := by
  simp [State.memRead, inBounds_iff]

/-- What `memWrite` answers: the state with the bytes stored, or the fault of the span. -/
theorem State.memWrite_eq (s : State) (base : Nat) (bytes : List Byte) :
    s.memWrite base bytes =
      if bytes.length = 0 ∨ base + bytes.length ≤ memSize then
        .ok { s with mem := Memory.writeBytes s.mem base bytes }
      else .error (outOfRange base) := by
  simp [State.memWrite, inBounds_iff]

end Sys2Proof.Machine
end

