-- ==== Sys2Proof/Laws/Ops.lean ====
section
/-! SUPPORT. What each shared operation of the machine can do, once each: completing and attempting an instruction,
skips, the two writes of a flag-writing instruction, the stack, and the register load. -/

namespace Sys2Proof.Machine

/-! ### Completing an instruction -/

@[simp] theorem State.complete_eq (s : State) (effect : State → State) :
    s.complete effect = .next (effect s.advance) := rfl

theorem State.attempt_of_ok {s t : State} {effect : State → Except Cause State} (h : effect s.advance = .ok t) :
    s.attempt effect = .next t := by
  simp [State.attempt, h]

theorem State.attempt_of_error {s : State} {c : Cause} {effect : State → Except Cause State}
    (h : effect s.advance = .error c) : s.attempt effect = .next (s.raise c) := by
  simp [State.attempt, h]

/-- What `attempt` can answer: the effect's state, or the state before with the latch set and nothing else (R186). -/
theorem State.attempt_cases {s t : State} {effect : State → Except Cause State} (h : s.attempt effect = .next t) :
    effect s.advance = .ok t ∨ ∃ c, effect s.advance = .error c ∧ t = s.raise c := by
  unfold State.attempt at h
  split at h <;> simp_all

/-! ### Skips -/

/-- A skip moves nothing but the program counter. -/
theorem State.skipIf_eq (s : State) (b : Bool) :
    s.skipIf b = { s with pc := if b then s.pc + 2#16 else s.pc } := by
  cases b <;> rfl

/-- The advance of the step and that of a taken skip together. -/
theorem advance_twice (pc : Word) : pc + 2#16 + 2#16 = pc + 4#16 := by
  rw [BitVec.add_assoc]; rfl

/-- A skip instruction: A + 4 when it skips, A + 2 when it does not. -/
theorem State.complete_skipIf (s : State) (condition : State → Bool) :
    s.complete (fun t => t.skipIf (condition t)) =
      .next { s with pc := if condition s.advance then s.pc + 4#16 else s.pc + 2#16 } := by
  simp only [State.complete_eq, State.skipIf_eq, State.advance_pc, advance_twice]
  rfl

/-! ### The two writes of a flag-writing instruction -/

theorem State.setResultThenFlag_eq (s : State) (x : Reg) (result flag : Byte) :
    s.setResultThenFlag x result flag = { s with v := (s.v.set x.val result).set 15 flag } := rfl

theorem State.setFlagThenResult_eq (s : State) (x : Reg) (result flag : Byte) :
    s.setFlagThenResult x result flag = { s with v := (s.v.set 15 flag).set x.val result } := rfl

theorem State.setFlagAndResult_asListed {s : State} (h : s.params.vfWriteOrder = .asListed) (x : Reg)
    (result flag : Byte) : s.setFlagAndResult x result flag = s.setFlagThenResult x result flag := by
  simp [State.setFlagAndResult, h]

theorem State.setFlagAndResult_flagLast {s : State} (h : s.params.vfWriteOrder = .flagLast) (x : Reg)
    (result flag : Byte) : s.setFlagAndResult x result flag = s.setResultThenFlag x result flag := by
  simp [State.setFlagAndResult, h]

/-- Under either order the two writes touch no other field than the register file, and of it only `V[x]` and VF. -/
theorem State.setFlagAndResult_eq (s : State) (x : Reg) (result flag : Byte) :
    ∃ v : Vector Byte 16, s.setFlagAndResult x result flag = { s with v := v } ∧
      ∀ r : Reg, r ≠ x → r ≠ flagReg → v[r.val] = s.v[r.val] := by
  have hset : ∀ (w : Vector Byte 16) (q r : Reg) (b : Byte), r ≠ q → (w.set q.val b)[r.val] = w[r.val] := by
    intro w q r b hrq
    exact Vector.getElem_set_ne _ _ (fun h => hrq (Fin.ext h.symm))
  unfold State.setFlagAndResult
  split
  · exact ⟨_, rfl, fun r hx hf => (hset _ _ _ _ hx).trans (hset s.v flagReg r flag hf)⟩
  · exact ⟨_, rfl, fun r hx hf => (hset _ flagReg r flag hf).trans (hset s.v x r result hx)⟩

/-! The fields either order of the two writes leaves alone. -/

@[simp] theorem State.setFlagAndResult_mem (s : State) (x : Reg) (result flag : Byte) :
    (s.setFlagAndResult x result flag).mem = s.mem := by
  unfold State.setFlagAndResult; split <;> rfl
@[simp] theorem State.setFlagAndResult_idx (s : State) (x : Reg) (result flag : Byte) :
    (s.setFlagAndResult x result flag).idx = s.idx := by
  unfold State.setFlagAndResult; split <;> rfl
@[simp] theorem State.setFlagAndResult_pc (s : State) (x : Reg) (result flag : Byte) :
    (s.setFlagAndResult x result flag).pc = s.pc := by
  unfold State.setFlagAndResult; split <;> rfl
@[simp] theorem State.setFlagAndResult_stack (s : State) (x : Reg) (result flag : Byte) :
    (s.setFlagAndResult x result flag).stack = s.stack := by
  unfold State.setFlagAndResult; split <;> rfl
@[simp] theorem State.setFlagAndResult_dt (s : State) (x : Reg) (result flag : Byte) :
    (s.setFlagAndResult x result flag).dt = s.dt := by
  unfold State.setFlagAndResult; split <;> rfl
@[simp] theorem State.setFlagAndResult_st (s : State) (x : Reg) (result flag : Byte) :
    (s.setFlagAndResult x result flag).st = s.st := by
  unfold State.setFlagAndResult; split <;> rfl
@[simp] theorem State.setFlagAndResult_wait (s : State) (x : Reg) (result flag : Byte) :
    (s.setFlagAndResult x result flag).wait = s.wait := by
  unfold State.setFlagAndResult; split <;> rfl
@[simp] theorem State.setFlagAndResult_fault (s : State) (x : Reg) (result flag : Byte) :
    (s.setFlagAndResult x result flag).fault = s.fault := by
  unfold State.setFlagAndResult; split <;> rfl
@[simp] theorem State.setFlagAndResult_fb (s : State) (x : Reg) (result flag : Byte) :
    (s.setFlagAndResult x result flag).fb = s.fb := by
  unfold State.setFlagAndResult; split <;> rfl
@[simp] theorem State.setFlagAndResult_visible (s : State) (x : Reg) (result flag : Byte) :
    (s.setFlagAndResult x result flag).visible = s.visible := by
  unfold State.setFlagAndResult; split <;> rfl
@[simp] theorem State.setFlagAndResult_keys (s : State) (x : Reg) (result flag : Byte) :
    (s.setFlagAndResult x result flag).keys = s.keys := by
  unfold State.setFlagAndResult; split <;> rfl
@[simp] theorem State.setFlagAndResult_tone (s : State) (x : Reg) (result flag : Byte) :
    (s.setFlagAndResult x result flag).tone = s.tone := by
  unfold State.setFlagAndResult; split <;> rfl
@[simp] theorem State.setFlagAndResult_params (s : State) (x : Reg) (result flag : Byte) :
    (s.setFlagAndResult x result flag).params = s.params := by
  unfold State.setFlagAndResult; split <;> rfl
@[simp] theorem State.setFlagAndResult_batch (s : State) (x : Reg) (result flag : Byte) :
    (s.setFlagAndResult x result flag).batch = s.batch := by
  unfold State.setFlagAndResult; split <;> rfl
@[simp] theorem State.setFlagAndResult_schedule (s : State) (x : Reg) (result flag : Byte) :
    (s.setFlagAndResult x result flag).schedule = s.schedule := by
  unfold State.setFlagAndResult; split <;> rfl
@[simp] theorem State.setFlagAndResult_draws (s : State) (x : Reg) (result flag : Byte) :
    (s.setFlagAndResult x result flag).draws = s.draws := by
  unfold State.setFlagAndResult; split <;> rfl
@[simp] theorem State.setFlagAndResult_requests (s : State) (x : Reg) (result flag : Byte) :
    (s.setFlagAndResult x result flag).requests = s.requests := by
  unfold State.setFlagAndResult; split <;> rfl

/-! ### The call stack -/

theorem State.push_of_room {s : State} (h : s.params.stackDepth ≠ some s.stack.length) (w : Word) :
    s.push w = .ok { s with stack := w :: s.stack } := by
  simp [State.push, h]

theorem State.push_of_full {s : State} (h : s.params.stackDepth = some s.stack.length) (w : Word) :
    s.push w = .error (.stackOverflow w) := by
  simp [State.push, h]

theorem State.pop_of_cons {s : State} {w : Word} {rest : List Word} (h : s.stack = w :: rest) :
    s.pop = .ok (w, { s with stack := rest }) := by
  simp [State.pop, h]

theorem State.pop_of_nil {s : State} (h : s.stack = []) : s.pop = .error .stackUnderflow := by
  simp [State.pop, h]

/-! ### Register blocks -/

@[simp] theorem State.length_regsUpTo (s : State) (x : Reg) : (s.regsUpTo x).length = x.val + 1 := by
  simp [State.regsUpTo]

/-- Byte k of V0 to Vx is V[k] (R154). -/
theorem State.getD_regsUpTo (s : State) (x k : Reg) (h : k ≤ x) : (s.regsUpTo x).getD k.val 0x00#8 = s.reg k := by
  have hk : k.val < x.val + 1 := Nat.lt_succ_of_le h
  have hlen : k.val < (s.regsUpTo x).length := by simpa using hk
  rw [List.getD_eq_getElem _ _ hlen]
  simp [State.regsUpTo, State.reg_eq]

/-- A register after a register load: its byte if the list has one, its old value otherwise (R155). -/
theorem State.loadRegs_reg (s : State) (bytes : List Byte) (r : Reg) :
    (s.loadRegs bytes).reg r = bytes.getD r.val (s.reg r) := by
  simp [State.loadRegs, State.reg_eq]

/-- A register load touches nothing but the register file. -/
theorem State.loadRegs_eq (s : State) (bytes : List Byte) :
    ∃ v : Vector Byte 16, s.loadRegs bytes = { s with v := v } ∧
      ∀ r : Reg, v[r.val] = bytes.getD r.val s.v[r.val] :=
  ⟨_, rfl, fun r => s.loadRegs_reg bytes r⟩

@[simp] theorem length_bcdDigits (b : Byte) : (bcdDigits b).length = 3 := rfl

/-! ### The meanings that may fault -/

/-- `RET` with an entry to pop. -/
theorem execRet_of_cons {s : State} {w : Word} {rest : List Word} (h : s.stack = w :: rest) :
    execRet s = .next { s with pc := w, stack := rest } := by
  refine State.attempt_of_ok ?_
  rw [State.pop_of_cons (s := s.advance) h]
  rfl

/-- `RET` on an empty stack. -/
theorem execRet_of_nil {s : State} (h : s.stack = []) : execRet s = .next (s.raise .stackUnderflow) := by
  refine State.attempt_of_error ?_
  rw [State.pop_of_nil (s := s.advance) h]
  rfl

/-- `CALL` with room on the stack. -/
theorem execCall_of_room {s : State} (h : s.params.stackDepth ≠ some s.stack.length) (nnn : Addr12) :
    execCall nnn s = .next { s with pc := absolute nnn, stack := (s.pc + 2#16) :: s.stack } := by
  refine State.attempt_of_ok ?_
  rw [State.push_of_room (s := s.advance) h]
  rfl

/-- `CALL` on a full stack. -/
theorem execCall_of_full {s : State} (h : s.params.stackDepth = some s.stack.length) (nnn : Addr12) :
    execCall nnn s = .next (s.raise (.stackOverflow (s.pc + 2#16))) := by
  refine State.attempt_of_error ?_
  rw [State.push_of_full (s := s.advance) h]
  rfl

/-- A storing instruction, from the bytes it stores at `I` (R153, R154). -/
theorem State.attempt_memWrite (s : State) (bytes : State → List Byte) :
    s.attempt (fun t => t.memWrite t.base (bytes t)) =
      if (bytes s.advance).length = 0 ∨ s.idx.toNat + (bytes s.advance).length ≤ memSize then
        .next { s with pc := s.pc + 2#16, mem := Memory.writeBytes s.mem s.idx.toNat (bytes s.advance) }
      else .next (s.raise (outOfRange s.idx.toNat)) := by
  split
  · rename_i h
    exact State.attempt_of_ok (by rw [State.memWrite_eq]; exact if_pos h)
  · rename_i h
    exact State.attempt_of_error (by rw [State.memWrite_eq]; exact if_neg h)

/-- A reading instruction, from what it does with the bytes at `I` (R155, R165). -/
theorem State.attempt_memRead (s : State) (len : Nat) (effect : State → List Byte → State) :
    s.attempt (fun t => do
        let bytes ← t.memRead t.base len
        pure (effect t bytes)) =
      if len = 0 ∨ s.idx.toNat + len ≤ memSize then
        .next (effect s.advance (Memory.readBytes s.mem s.idx.toNat len))
      else .next (s.raise (outOfRange s.idx.toNat)) := by
  split
  · rename_i h
    have hr : s.advance.memRead s.advance.base len = .ok (Memory.readBytes s.mem s.idx.toNat len) := by
      rw [State.memRead_eq]; exact if_pos h
    exact State.attempt_of_ok (by rw [hr]; rfl)
  · rename_i h
    have hr : s.advance.memRead s.advance.base len = .error (outOfRange s.idx.toNat) := by
      rw [State.memRead_eq]; exact if_neg h
    exact State.attempt_of_error (by rw [hr]; rfl)

end Sys2Proof.Machine
end

