-- ==== Sys2Proof/Laws/Display.lean ====
section
/-! SUPPORT. The laws of the frame buffer and of drawing: one pixel, a list of pixels, and the list of pixels a sprite
of fixed coordinates plots. -/

namespace Sys2Proof.Machine

/-! ### One pixel (R161, R162) -/

/-- A pixel after a toggle: flipped if its reduced coordinates are the toggled ones, otherwise as before (R161). -/
theorem Frame.pixel_toggle (fb : Frame) (row col r c : Nat) :
    (fb.toggle row col).pixel r c =
      if r % 32 = row % 32 ∧ c % 64 = col % 64 then !fb.pixel r c else fb.pixel r c := by
  simp only [Frame.toggle, Frame.pixel, Vector.getElem_set]
  by_cases hr : row % 32 = r % 32
  · simp only [hr, if_true, Vector.getElem_set]
    by_cases hc : col % 64 = c % 64
    · simp [hc]
    · simp [hc, Ne.symm hc]
  · simp [hr, Ne.symm hr]

@[simp] theorem Frame.pixel_clear (r c : Nat) : Frame.clear.pixel r c = false := by
  simp [Frame.pixel, Frame.clear]

/-- Two frame buffers with the same pixels are equal. -/
theorem Frame.ext_pixel {fb fb' : Frame} (h : ∀ r c, r < 32 → c < 64 → fb.pixel r c = fb'.pixel r c) :
    fb = fb' := by
  ext r hr c hc
  have := h r c hr hc
  simpa [Frame.pixel, Nat.mod_eq_of_lt hr, Nat.mod_eq_of_lt hc] using this

/-! ### A list of pixels -/

/-- Plot a list of coordinates (column, row) in order. -/
def Canvas.plotAll (c : Canvas) (cells : List (Nat × Nat)) : Canvas :=
  cells.foldl (fun d p => d.plot p.1 p.2) c

@[simp] theorem Canvas.plotAll_nil (c : Canvas) : c.plotAll [] = c := rfl

@[simp] theorem Canvas.plotAll_cons (c : Canvas) (p : Nat × Nat) (ps : List (Nat × Nat)) :
    c.plotAll (p :: ps) = (c.plot p.1 p.2).plotAll ps := rfl

theorem Canvas.plotAll_append (c : Canvas) (ps qs : List (Nat × Nat)) :
    c.plotAll (ps ++ qs) = (c.plotAll ps).plotAll qs := by
  simp [Canvas.plotAll]

/-- The cell is the pixel at a row and a column, both reduced (R161). -/
def hits (p : Nat × Nat) (r c : Nat) : Bool := decide (r % 32 = p.2 % 32 ∧ c % 64 = p.1 % 64)

@[simp] theorem Canvas.plot_pixel (c : Canvas) (x y row col : Nat) :
    (c.plot x y).fb.pixel row col = (c.fb.pixel row col ^^ hits (x, y) row col) := by
  simp only [Canvas.plot, Frame.pixel_toggle, hits]
  split <;> rename_i h <;> simp [h]

/-- Cells that are pairwise different pixels. -/
def Distinct (ps : List (Nat × Nat)) : Prop := ps.Pairwise fun p q => hits p q.2 q.1 = false

/-- Each pixel is toggled exactly when one of pairwise different cells is it. -/
theorem Canvas.plotAll_pixel {ps : List (Nat × Nat)} (h : Distinct ps) (c : Canvas) (row col : Nat) :
    (c.plotAll ps).fb.pixel row col = (c.fb.pixel row col ^^ ps.any fun p => hits p row col) := by
  induction ps generalizing c with
  | nil => simp
  | cons p ps ih =>
    obtain ⟨hp, hps⟩ := List.pairwise_cons.mp h
    rw [Canvas.plotAll_cons, ih hps, Canvas.plot_pixel, List.any_cons, Bool.xor_assoc]
    congr 1
    by_cases hh : hits p row col = true
    · have : ps.any (fun q => hits q row col) = false := by
        rw [List.any_eq_false]
        intro q hq hq'
        have hpq := hp q hq
        simp only [hits, decide_eq_true_eq, decide_eq_false_iff_not] at hh hq' hpq
        exact hpq ⟨hq'.1.symm.trans hh.1, hq'.2.symm.trans hh.2⟩
      simp [hh, this]
    · simp [Bool.eq_false_iff.mpr hh]

/-- VF is 1 afterwards exactly when it was 1 or one of pairwise different cells was set before. -/
theorem Canvas.plotAll_vf {ps : List (Nat × Nat)} (h : Distinct ps) (c : Canvas) :
    (c.plotAll ps).vf = if ps.any fun p => c.fb.pixel p.2 p.1 then 0x01#8 else c.vf := by
  induction ps generalizing c with
  | nil => simp
  | cons p ps ih =>
    obtain ⟨hp, hps⟩ := List.pairwise_cons.mp h
    have hsame : (ps.any fun q => (c.plot p.1 p.2).fb.pixel q.2 q.1) = ps.any fun q => c.fb.pixel q.2 q.1 := by
      refine Bool.eq_iff_iff.mpr ?_
      simp only [List.any_eq_true]
      exact exists_congr fun q => and_congr_right fun hq => by simp [hp q hq]
    rw [Canvas.plotAll_cons, ih hps, hsame]
    simp only [Canvas.plot, List.any_cons]
    by_cases hset : c.fb.pixel p.2 p.1 = true
    · simp [hset]
    · rw [Bool.not_eq_true] at hset
      rw [if_neg (by simp [hset] : ¬c.fb.pixel p.2 p.1 = true)]
      exact if_congr (by rw [hset, Bool.false_or]) rfl rfl

/-- One request for each cell, newest first (R35, R163). -/
theorem Canvas.plotAll_requests (ps : List (Nat × Nat)) (c : Canvas) :
    (c.plotAll ps).requests = (ps.map fun p => Request.setPixel p.1 p.2).reverse ++ c.requests := by
  induction ps generalizing c with
  | nil => simp
  | cons p ps ih => simp [ih, Canvas.plot]

/-! ### A sprite of fixed coordinates (R165) -/

/-- The cells of one sprite row, left to right. -/
def rowCells (px py row : Nat) (b : Byte) : List (Nat × Nat) :=
  ((List.range 8).filter fun col => b.getLsbD (7 - col)).map fun col => (px + col, py + row)

/-- The cells of a sprite from one of its rows on, top to bottom. -/
def spriteCells (px py : Nat) : Nat → List Byte → List (Nat × Nat)
  | _, [] => []
  | row, b :: bs => rowCells px py row b ++ spriteCells px py (row + 1) bs

theorem Canvas.plotRow_const (px py row : Nat) (b : Byte) (c : Canvas) :
    c.plotRow (fun _ => px) (fun _ => py) row b = c.plotAll (rowCells px py row b) := by
  simp only [Canvas.plotRow, Canvas.plotAll, rowCells, List.foldl_map, List.foldl_filter]

theorem Canvas.plotRows_const (px py row : Nat) (bytes : List Byte) (c : Canvas) :
    Canvas.plotRows (fun _ => px) (fun _ => py) row bytes c = c.plotAll (spriteCells px py row bytes) := by
  induction bytes generalizing row c with
  | nil => rfl
  | cons b bs ih =>
    rw [Canvas.plotRows, ih, Canvas.plotRow_const, spriteCells, Canvas.plotAll_append]

/-- A cell of a sprite: a 1 bit of one of its rows. -/
theorem mem_spriteCells {px py row : Nat} {bytes : List Byte} {p : Nat × Nat} :
    p ∈ spriteCells px py row bytes ↔
      ∃ k col, k < bytes.length ∧ col < 8 ∧ (bytes.getD k 0x00#8).getLsbD (7 - col) = true ∧
        p = (px + col, py + row + k) := by
  induction bytes generalizing row with
  | nil => simp [spriteCells]
  | cons b bs ih =>
    simp only [spriteCells, List.mem_append, ih, rowCells, List.mem_map, List.mem_filter, List.mem_range]
    constructor
    · rintro (⟨col, ⟨hcol, hb⟩, rfl⟩ | ⟨k, col, hk, hcol, hb, rfl⟩)
      · exact ⟨0, col, by simp, hcol, by simpa using hb, by simp⟩
      · exact ⟨k + 1, col, by simpa using hk, hcol, by simpa using hb, by simp; omega⟩
    · rintro ⟨k, col, hk, hcol, hb, rfl⟩
      cases k with
      | zero => exact .inl ⟨col, ⟨hcol, by simpa using hb⟩, by simp⟩
      | succ k => exact .inr ⟨k, col, by simpa using hk, hcol, by simpa using hb, by simp; omega⟩

/-- The cells of a sprite of at most 32 rows are pairwise different pixels (R166). -/
theorem distinct_spriteCells (px py row : Nat) (bytes : List Byte) (h : bytes.length ≤ 32) :
    Distinct (spriteCells px py row bytes) := by
  induction bytes generalizing row with
  | nil => exact List.Pairwise.nil
  | cons b bs ih =>
    simp only [List.length_cons] at h
    refine List.pairwise_append.mpr ⟨?_, ih (row + 1) (by omega), ?_⟩
    · refine List.pairwise_map.mpr ?_
      have hlt : ((List.range 8).filter fun col => b.getLsbD (7 - col)).Pairwise fun a c => a < c :=
        List.Pairwise.filter _ List.pairwise_lt_range
      refine List.Pairwise.imp_of_mem ?_ hlt
      intro a c ha hc hac
      have ha8 : a < 8 := by simpa using (List.mem_filter.mp ha).1
      have hc8 : c < 8 := by simpa using (List.mem_filter.mp hc).1
      simp only [hits, decide_eq_false_iff_not, not_and]
      intro _
      omega
    · intro p hp q hq
      obtain ⟨k, col, hk, hcol, _, rfl⟩ := mem_spriteCells.mp hq
      simp only [rowCells, List.mem_map, List.mem_filter, List.mem_range] at hp
      obtain ⟨a, ⟨ha, _⟩, rfl⟩ := hp
      simp only [hits, decide_eq_false_iff_not, not_and]
      intro h1
      omega

/-- The pixels a sprite's cells hit are the pixels its 1 bits cover (R163, R166). -/
theorem any_hits_spriteCells (m : Memory) (base n px py row col : Nat) (hn : n ≤ 15) (hr : row < 32)
    (hc : col < 64) :
    ((spriteCells px py 0 (Memory.readBytes m base n)).any fun p => hits p row col) =
      spriteBit m base n px py row col := by
  refine Bool.eq_iff_iff.mpr ?_
  simp only [List.any_eq_true, mem_spriteCells, Memory.length_readBytes, spriteBit, Bool.and_eq_true,
    decide_eq_true_eq]
  constructor
  · rintro ⟨_, ⟨k, j, hk, hj, hb, rfl⟩, hh⟩
    simp only [hits, decide_eq_true_eq] at hh
    have h1 : (row + 32 - py % 32) % 32 = k := by omega
    have h2 : (col + 64 - px % 64) % 64 = j := by omega
    rw [h1, h2]
    rw [List.getD_eq_getElem _ _ (by simpa using hk), Memory.getElem_readBytes] at hb
    exact ⟨⟨hk, hj⟩, hb⟩
  · rintro ⟨⟨hk, hj⟩, hb⟩
    refine ⟨_, ⟨_, _, hk, hj, ?_, rfl⟩, ?_⟩
    · rw [List.getD_eq_getElem _ _ (by simpa using hk), Memory.getElem_readBytes]
      exact hb
    · simp only [hits, decide_eq_true_eq]
      omega

/-! ### A sprite as its list of 1 bits, whatever its coordinates do (R165, R166) -/

/-- One sprite row, as a fold over its 1 bits. -/
theorem Canvas.plotRow_eq_foldl (px py : Byte → Nat) (row : Nat) (b : Byte) (c : Canvas) :
    c.plotRow px py row b =
      (((List.range 8).filter fun col => b.getLsbD (7 - col)).map fun col => (row, col)).foldl
        (fun d bit => d.plot (px d.vf + bit.2) (py d.vf + bit.1)) c := by
  simp only [Canvas.plotRow, List.foldl_map, List.foldl_filter]

/-- Sprite rows, as a fold over their numbers. -/
theorem Canvas.plotRows_eq_foldl (px py : Byte → Nat) (first : Nat) (bytes : List Byte) (c : Canvas) :
    Canvas.plotRows px py first bytes c =
      (List.range bytes.length).foldl (fun d row => d.plotRow px py (first + row) (bytes.getD row 0x00#8)) c := by
  induction bytes generalizing first c with
  | nil => rfl
  | cons b bs ih =>
    rw [Canvas.plotRows, ih, List.length_cons, List.range_succ_eq_map, List.foldl_cons, List.foldl_map]
    simp only [List.getD_cons_zero, List.getD_cons_succ, Nat.add_zero, Nat.add_succ, Nat.succ_add]

/-- The rows of a sprite in memory, as a fold over its 1 bits in order; the coordinates may depend on VF. -/
theorem Canvas.plotRows_eq_ones (px py : Byte → Nat) (m : Memory) (base n : Nat) (c : Canvas) :
    Canvas.plotRows px py 0 (Memory.readBytes m base n) c =
      (spriteOnes m base n).foldl (fun d bit => d.plot (px d.vf + bit.2) (py d.vf + bit.1)) c := by
  rw [Canvas.plotRows_eq_foldl, Memory.length_readBytes, spriteOnes, List.foldl_flatMap]
  refine List.foldl_ext _ _ _ fun d row hrow => ?_
  rw [List.getD_eq_getElem _ _ (by simpa using List.mem_range.mp hrow), Memory.getElem_readBytes, Nat.zero_add,
    Canvas.plotRow_eq_foldl]

/-! ### Drawing a sprite (R165) -/

/-- Whatever the coordinates, the drawing leaves VF at 0 or 1 when it starts so. -/
theorem Canvas.plotRows_vf (px py : Byte → Nat) (row : Nat) (bytes : List Byte) (c : Canvas)
    (h : c.vf = 0x00#8 ∨ c.vf = 0x01#8) :
    (Canvas.plotRows px py row bytes c).vf = 0x00#8 ∨ (Canvas.plotRows px py row bytes c).vf = 0x01#8 := by
  induction bytes generalizing row c with
  | nil => exact h
  | cons b bs ih =>
    refine ih (row + 1) _ ?_
    unfold Canvas.plotRow
    generalize List.range 8 = cols
    induction cols generalizing c with
    | nil => exact h
    | cons col cols ihc =>
      rw [List.foldl_cons]
      refine ihc _ ?_
      split
      · simp only [Canvas.plot]
        split
        · exact .inr rfl
        · exact h
      · exact h

/-- What drawing a sprite leaves: VF, the frame buffer and the requests of a canvas, and nothing else. -/
theorem State.drawSprite_eq (s : State) (x y : Reg) (rows : List Byte) :
    ∃ c : Canvas, (c.vf = 0x00#8 ∨ c.vf = 0x01#8) ∧
      s.drawSprite x y rows = { s with v := s.v.set 15 c.vf, fb := c.fb, requests := c.requests } :=
  ⟨_, Canvas.plotRows_vf _ _ 0 rows _ (.inl rfl), rfl⟩

/-- The canvas of a sprite whose coordinates no flag can change: the cells of the sprite, in order (R165, R166). -/
theorem State.drawSprite_fixed {s : State} {x y : Reg} (px py : Nat) (hx : ∀ vf, s.coordinate x vf = px)
    (hy : ∀ vf, s.coordinate y vf = py) (rows : List Byte) (c : Canvas)
    (hc : c = Canvas.plotAll { fb := s.fb, vf := 0x00#8, requests := s.requests } (spriteCells px py 0 rows)) :
    s.drawSprite x y rows = { s with v := s.v.set 15 c.vf, fb := c.fb, requests := c.requests } := by
  have h1 : s.coordinate x = fun _ => px := funext hx
  have h2 : s.coordinate y = fun _ => py := funext hy
  rw [State.drawSprite, h1, h2, Canvas.plotRows_const, ← hc]
  rfl

theorem State.coordinate_sampled {s : State} (h : s.params.drwVfOperand = .sampled) (r : Reg) (vf : Byte) :
    s.coordinate r vf = (s.reg r).toNat := by
  simp [State.coordinate, h]

theorem State.coordinate_of_ne {s : State} {r : Reg} (h : r ≠ flagReg) (vf : Byte) :
    s.coordinate r vf = (s.reg r).toNat := by
  unfold State.coordinate
  split
  · rfl
  · rw [if_neg h]

/-- `DRW` in full: the sprite drawn on the advanced state, or the fault of its rows (R165, R182). -/
theorem execDrw_eq (x y : Reg) (n : BitVec 4) (s : State) :
    execDrw x y n s =
      if n.toNat = 0 ∨ s.idx.toNat + n.toNat ≤ memSize then
        .next (s.advance.drawSprite x y (Memory.readBytes s.mem s.idx.toNat n.toNat))
      else .next (s.raise (outOfRange s.idx.toNat)) :=
  State.attempt_memRead s n.toNat fun t rows => t.drawSprite x y rows

end Sys2Proof.Machine
end

