-- ==== Sys2Proof/Laws/Exec.lean ====
section
/-! SUPPORT. What the instructions can do, over all of them: they always answer a next state, they touch only what
the rules name, and they do not read the fields that belong to the batch and to the collaborators' outputs. -/

namespace Sys2Proof.Machine

/-! ### The memory instructions in full -/

theorem execLdB_eq (x : Reg) (s : State) :
    execLdB x s =
      if s.idx.toNat + 3 ≤ memSize then
        .next { s with
          pc := s.pc + 2#16, mem := Memory.writeBytes s.mem s.idx.toNat (bcdDigits (s.reg x)) }
      else .next (s.raise (outOfRange s.idx.toNat)) := by
  have h := State.attempt_memWrite s fun t => bcdDigits (t.reg x)
  simp only [length_bcdDigits, State.advance_reg, OfNat.ofNat_ne_zero, false_or] at h
  exact h

theorem execStRegs_eq (x : Reg) (s : State) :
    execStRegs x s =
      if s.idx.toNat + (x.val + 1) ≤ memSize then
        .next { s with
          pc := s.pc + 2#16, mem := Memory.writeBytes s.mem s.idx.toNat (s.regsUpTo x) }
      else .next (s.raise (outOfRange s.idx.toNat)) := by
  have h := State.attempt_memWrite s fun t => t.regsUpTo x
  simp only [State.length_regsUpTo, Nat.succ_ne_zero, false_or] at h
  exact h

theorem execLdRegs_eq (x : Reg) (s : State) :
    execLdRegs x s =
      if s.idx.toNat + (x.val + 1) ≤ memSize then
        .next (s.advance.loadRegs (Memory.readBytes s.mem s.idx.toNat (x.val + 1)))
      else .next (s.raise (outOfRange s.idx.toNat)) := by
  have h := State.attempt_memRead s (x.val + 1) fun t bytes => t.loadRegs bytes
  simp only [Nat.succ_ne_zero, false_or] at h
  exact h

/-- `RET` in full. -/
theorem execRet_eq (s : State) :
    execRet s = match s.stack with
      | [] => .next (s.raise .stackUnderflow)
      | w :: rest => .next { s with pc := w, stack := rest } := by
  cases h : s.stack with
  | nil => exact execRet_of_nil h
  | cons w rest => exact execRet_of_cons h

/-- `CALL` in full. -/
theorem execCall_eq (nnn : Addr12) (s : State) :
    execCall nnn s =
      if s.params.stackDepth = some s.stack.length then .next (s.raise (.stackOverflow (s.pc + 2#16)))
      else .next { s with pc := absolute nnn, stack := (s.pc + 2#16) :: s.stack } := by
  split
  · rename_i h; exact execCall_of_full h nnn
  · rename_i h; exact execCall_of_room h nnn

/-! ### Fields no instruction reads -/

/-- Replace the fields no instruction reads: the sound timer, the tone, the visible surface, and the batch counter. -/
def State.withUnread (s : State) (st : Byte) (tone : Bool) (visible : Frame) (batch : Option Nat) : State :=
  { s with st := st, tone := tone, visible := visible, batch := batch }

/-- Every instruction runs alike whatever the fields no instruction reads; only `LD ST, Vx` writes one of them. -/
theorem exec_withUnread (i : Instr) (s : State) (st : Byte) (tone : Bool) (visible : Frame) (batch : Option Nat) :
    ∃ t, exec i s = .next t ∧ t.tone = s.tone ∧ t.visible = s.visible ∧ t.batch = s.batch ∧
      exec i (s.withUnread st tone visible batch) =
        .next (t.withUnread (match i with | .ldSTVx _ => t.st | _ => st) tone visible batch) := by
  cases i with
  | ret =>
    cases h : s.stack with
    | nil =>
      exact ⟨_, execRet_of_nil h, rfl, rfl, rfl, execRet_of_nil (s := s.withUnread st tone visible batch) h⟩
    | cons w rest =>
      exact ⟨_, execRet_of_cons h, rfl, rfl, rfl, execRet_of_cons (s := s.withUnread st tone visible batch) h⟩
  | call nnn =>
    simp only [exec, execCall_eq, State.withUnread]
    split <;> exact ⟨_, rfl, rfl, rfl, rfl, rfl⟩
  | ldB x =>
    simp only [exec, execLdB_eq, State.withUnread]
    split <;> exact ⟨_, rfl, rfl, rfl, rfl, rfl⟩
  | stRegs x =>
    simp only [exec, execStRegs_eq, State.withUnread]
    split <;> exact ⟨_, rfl, rfl, rfl, rfl, rfl⟩
  | ldRegs x =>
    simp only [exec, execLdRegs_eq, State.withUnread]
    split <;> exact ⟨_, rfl, rfl, rfl, rfl, rfl⟩
  | drw x y n =>
    simp only [exec, execDrw_eq, State.withUnread]
    split <;> exact ⟨_, rfl, rfl, rfl, rfl, rfl⟩
  | sub x y | shr x y | subn x y | shl x y =>
    simp only [exec, execSub, execShr, execSubn, execShl, State.complete_eq]
    unfold State.setFlagAndResult
    simp only [State.withUnread, State.advance_params]
    cases s.params.vfWriteOrder <;> exact ⟨_, rfl, rfl, rfl, rfl, rfl⟩
  | seImm x kk | sneImm x kk | seReg x y | sneReg x y | skp x | sknp x =>
    simp only [exec, execSeImm, execSneImm, execSeReg, execSneReg, execSkp, execSknp, State.complete_skipIf]
    exact ⟨_, rfl, rfl, rfl, rfl, rfl⟩
  | _ => exact ⟨_, rfl, rfl, rfl, rfl, rfl⟩

/-- Every instruction runs alike whatever the batch counter, and keeps it (R34). -/
theorem exec_withBatch (i : Instr) (s : State) (batch : Option Nat) :
    ∃ t, exec i s = .next t ∧ t.batch = s.batch ∧
      exec i { s with batch := batch } = .next { t with batch := batch } := by
  obtain ⟨t, h1, htone, hvis, hbatch, h2⟩ := exec_withUnread i s s.st s.tone s.visible batch
  obtain ⟨u, h3, -, -, -, h4⟩ := exec_withUnread i s s.st s.tone s.visible s.batch
  obtain rfl := Host.Outcome.next.inj (h1.symm.trans h3)
  have hst := congrArg State.st (Host.Outcome.next.inj (h1.symm.trans h4))
  simp only [State.withUnread] at hst h2
  refine ⟨t, h1, hbatch, h2.trans ?_⟩
  rw [← hst, ← htone, ← hvis]

/-! ### What an instruction leaves alone -/

/-- Every instruction answers a next state: no instruction stops the model (R11). -/
theorem exec_next (i : Instr) (s : State) : ∃ t, exec i s = .next t := by
  obtain ⟨t, h, _⟩ := exec_withUnread i s s.st s.tone s.visible s.batch
  exact ⟨t, h⟩

/-- The fields no instruction writes: what the batch, the environment and the model own (R41). -/
theorem exec_untouched {i : Instr} {s t : State} (h : exec i s = .next t) :
    t.keys = s.keys ∧ t.tone = s.tone ∧ t.visible = s.visible ∧ t.params = s.params ∧ t.batch = s.batch ∧
      t.schedule = s.schedule := by
  cases i with
  | ret =>
    simp only [exec, execRet_eq] at h
    split at h <;> obtain rfl := Host.Outcome.next.inj h <;> exact ⟨rfl, rfl, rfl, rfl, rfl, rfl⟩
  | call nnn =>
    simp only [exec, execCall_eq] at h
    split at h <;> obtain rfl := Host.Outcome.next.inj h <;> exact ⟨rfl, rfl, rfl, rfl, rfl, rfl⟩
  | ldB x =>
    simp only [exec, execLdB_eq] at h
    split at h <;> obtain rfl := Host.Outcome.next.inj h <;> exact ⟨rfl, rfl, rfl, rfl, rfl, rfl⟩
  | stRegs x =>
    simp only [exec, execStRegs_eq] at h
    split at h <;> obtain rfl := Host.Outcome.next.inj h <;> exact ⟨rfl, rfl, rfl, rfl, rfl, rfl⟩
  | ldRegs x =>
    obtain ⟨v, hv, _⟩ := State.loadRegs_eq s.advance (Memory.readBytes s.mem s.idx.toNat (x.val + 1))
    simp only [exec, execLdRegs_eq, hv] at h
    split at h <;> obtain rfl := Host.Outcome.next.inj h <;> exact ⟨rfl, rfl, rfl, rfl, rfl, rfl⟩
  | drw x y n =>
    obtain ⟨c, _, hc⟩ := State.drawSprite_eq s.advance x y (Memory.readBytes s.mem s.idx.toNat n.toNat)
    simp only [exec, execDrw_eq, hc] at h
    split at h <;> obtain rfl := Host.Outcome.next.inj h <;> exact ⟨rfl, rfl, rfl, rfl, rfl, rfl⟩
  | sub x y | shr x y | subn x y | shl x y =>
    obtain rfl := Host.Outcome.next.inj h
    simp
  | seImm x kk | sneImm x kk | seReg x y | sneReg x y | skp x | sknp x =>
    simp only [exec, execSeImm, execSneImm, execSeReg, execSneReg, execSkp, execSknp, State.complete_skipIf] at h
    obtain rfl := Host.Outcome.next.inj h
    exact ⟨rfl, rfl, rfl, rfl, rfl, rfl⟩
  | _ => obtain rfl := Host.Outcome.next.inj h; exact ⟨rfl, rfl, rfl, rfl, rfl, rfl⟩

/-- An instruction either completes with the latch as it was, or takes one fault on the state before it, with
nothing else changed (R11, R186, R187). -/
theorem exec_cases (i : Instr) (s : State) :
    (∃ t, exec i s = .next t ∧ t.fault = s.fault) ∨
      ∃ c, exec i s = .next (s.raise c) ∧
        (c = .stackUnderflow ∨ c = outOfRange s.idx.toNat ∨ c = .stackOverflow (s.pc + 2#16)) := by
  cases i with
  | ret =>
    simp only [exec, execRet_eq]
    cases s.stack with
    | nil => exact .inr ⟨_, rfl, .inl rfl⟩
    | cons w rest => exact .inl ⟨_, rfl, rfl⟩
  | call nnn =>
    simp only [exec, execCall_eq]
    split
    · exact .inr ⟨_, rfl, .inr (.inr rfl)⟩
    · exact .inl ⟨_, rfl, rfl⟩
  | ldB x =>
    simp only [exec, execLdB_eq]
    split
    · exact .inl ⟨_, rfl, rfl⟩
    · exact .inr ⟨_, rfl, .inr (.inl rfl)⟩
  | stRegs x =>
    simp only [exec, execStRegs_eq]
    split
    · exact .inl ⟨_, rfl, rfl⟩
    · exact .inr ⟨_, rfl, .inr (.inl rfl)⟩
  | ldRegs x =>
    simp only [exec, execLdRegs_eq]
    split
    · exact .inl ⟨_, rfl, rfl⟩
    · exact .inr ⟨_, rfl, .inr (.inl rfl)⟩
  | drw x y n =>
    simp only [exec, execDrw_eq]
    split
    · exact .inl ⟨_, rfl, rfl⟩
    · exact .inr ⟨_, rfl, .inr (.inl rfl)⟩
  | sub x y | shr x y | subn x y | shl x y =>
    exact .inl ⟨_, rfl, by simp⟩
  | seImm x kk | sneImm x kk | seReg x y | sneReg x y | skp x | sknp x =>
    simp only [exec, execSeImm, execSneImm, execSeReg, execSneReg, execSkp, execSknp, State.complete_skipIf]
    exact .inl ⟨_, rfl, rfl⟩
  | _ => exact .inl ⟨_, rfl, rfl⟩

end Sys2Proof.Machine
end

