-- ==== Sys2Proof/Laws/Cycle.lean ====
section
/-! SUPPORT. What a step can do: the fetch, the instruction step, the slots and the end of a batch, and the moves of
the environment. -/

namespace Sys2Proof.Machine

/-! ### The instruction step -/

/-- What the fetch answers (R91). -/
theorem State.fetch_eq (s : State) :
    s.fetch =
      if s.pc.toNat + 2 ≤ memSize then
        .ok (wordOfBytes (Memory.read s.mem s.pc.toNat) (Memory.read s.mem (s.pc.toNat + 1)))
      else .error (outOfRange s.pc.toNat) := by
  simp [State.fetch, inBounds_iff]

theorem State.fetch_of_le {s : State} (h : s.pc.toNat ≤ 0xFFE) :
    s.fetch = .ok (wordOfBytes (Memory.read s.mem s.pc.toNat) (Memory.read s.mem (s.pc.toNat + 1))) := by
  rw [State.fetch_eq, if_pos (by unfold memSize; omega)]

theorem State.fetch_of_gt {s : State} (h : 0xFFE < s.pc.toNat) : s.fetch = .error (outOfRange s.pc.toNat) := by
  rw [State.fetch_eq, if_neg (by unfold memSize; omega)]

/-- A word answers a next state whatever it is. -/
theorem runWord_next (op : Word) (s : State) : ∃ t, runWord op s = .next t := by
  unfold runWord
  split
  · exact exec_next _ s
  · exact ⟨_, rfl⟩

/-- An instruction step either completes with the latch as it was, or takes one fault on the state before it, with
nothing else changed (R11, R91, R186, R187). -/
theorem instructionStep_cases (s : State) :
    (∃ t, instructionStep s = .next t ∧ t.fault = s.fault) ∨
      ∃ c, instructionStep s = .next (s.raise c) ∧
        (c = .stackUnderflow ∨ c = outOfRange s.idx.toNat ∨ c = outOfRange s.pc.toNat ∨
          c = .stackOverflow (s.pc + 2#16)) := by
  unfold instructionStep
  rw [State.fetch_eq]
  by_cases hpc : s.pc.toNat + 2 ≤ memSize
  · rw [if_pos hpc]
    simp only [runWord]
    split
    · rcases exec_cases _ s with h | ⟨c, hc, h⟩
      · exact .inl h
      · exact .inr ⟨c, hc, by rcases h with h | h | h <;> simp [h]⟩
    · exact .inl ⟨_, rfl, rfl⟩
  · rw [if_neg hpc]
    exact .inr ⟨_, rfl, .inr (.inr (.inl rfl))⟩

/-- The instruction step at a program counter whose bytes decode. -/
theorem instructionStep_of_decode {s : State} {i : Instr} (hpc : s.pc.toNat ≤ 0xFFE)
    (h : decode (Memory.readBytes s.mem s.pc.toNat 2) = .ok (i, [])) : instructionStep s = exec i s := by
  unfold instructionStep
  rw [State.fetch_of_le hpc]
  simp only [Memory.readBytes, decode_pair] at h
  unfold runWord
  split at h <;> simp_all

/-- The instruction step at a program counter whose bytes are an unrecognised word (R75). -/
theorem instructionStep_of_unrecognised {s : State} {op : Word} (hpc : s.pc.toNat ≤ 0xFFE)
    (h : decode (Memory.readBytes s.mem s.pc.toNat 2) = .error (.unrecognised op)) :
    instructionStep s = .next s.advance := by
  unfold instructionStep
  rw [State.fetch_of_le hpc]
  simp only [Memory.readBytes, decode_pair] at h
  unfold runWord
  split at h <;> simp_all [execNop]

/-- The fields an instruction step never writes (R41). -/
theorem instructionStep_untouched {s t : State} (h : instructionStep s = .next t) :
    t.keys = s.keys ∧ t.tone = s.tone ∧ t.visible = s.visible ∧ t.params = s.params ∧ t.batch = s.batch ∧
      t.schedule = s.schedule := by
  unfold instructionStep at h
  rw [State.fetch_eq] at h
  by_cases hpc : s.pc.toNat + 2 ≤ memSize
  · rw [if_pos hpc] at h
    simp only [runWord] at h
    split at h
    · exact exec_untouched h
    · obtain rfl := Host.Outcome.next.inj h
      exact ⟨rfl, rfl, rfl, rfl, rfl, rfl⟩
  · rw [if_neg hpc] at h
    obtain rfl := Host.Outcome.next.inj h
    exact ⟨rfl, rfl, rfl, rfl, rfl, rfl⟩

/-! ### Slots and batches -/

/-- A step slot always answers a next state. -/
theorem stepSlot_next (s : State) : ∃ t, stepSlot s = .next t := by
  unfold stepSlot
  split
  · rcases instructionStep_cases s with ⟨t, h, _⟩ | ⟨c, h, _⟩
    · exact ⟨t, h⟩
    · exact ⟨_, h⟩
  · exact ⟨_, rfl⟩

theorem stepSlot_of_none {s : State} (h : s.wait = none) : stepSlot s = instructionStep s := by
  simp [stepSlot, h]

theorem stepSlot_of_some {s : State} {r : Reg} (h : s.wait = some r) : stepSlot s = .next s := by
  simp [stepSlot, h]

/-- An instruction step runs alike whatever the batch counter, and keeps it (R34). -/
theorem instructionStep_withBatch (s : State) (batch : Option Nat) :
    ∃ t, instructionStep s = .next t ∧ t.batch = s.batch ∧
      instructionStep { s with batch := batch } = .next { t with batch := batch } := by
  unfold instructionStep
  rw [show State.fetch { s with batch := batch } = s.fetch from rfl]
  cases s.fetch with
  | error c => exact ⟨_, rfl, rfl, rfl⟩
  | ok op =>
    simp only [runWord]
    cases decodeWord op with
    | none => exact ⟨_, rfl, rfl, rfl⟩
    | some i => exact exec_withBatch i s batch

/-- A step slot runs alike whatever the batch counter, and keeps it (R34, R96). -/
theorem stepSlot_withBatch (s : State) (batch : Option Nat) :
    ∃ t, stepSlot s = .next t ∧ t.batch = s.batch ∧
      stepSlot { s with batch := batch } = .next { t with batch := batch } := by
  rcases Option.eq_none_or_eq_some s.wait with hw | ⟨r, hw⟩
  · rw [stepSlot_of_none hw, stepSlot_of_none (s := { s with batch := batch }) hw]
    exact instructionStep_withBatch s batch
  · exact ⟨_, stepSlot_of_some hw, rfl, stepSlot_of_some (s := { s with batch := batch }) hw⟩

/-- The fields a step slot never writes (R41, R103). -/
theorem stepSlot_untouched {s t : State} (h : stepSlot s = .next t) :
    t.keys = s.keys ∧ t.tone = s.tone ∧ t.visible = s.visible ∧ t.params = s.params ∧ t.batch = s.batch ∧
      t.schedule = s.schedule := by
  cases hw : s.wait with
  | none => exact instructionStep_untouched ((stepSlot_of_none hw).symm.trans h)
  | some r =>
    obtain rfl := Host.Outcome.next.inj ((stepSlot_of_some hw).symm.trans h)
    exact ⟨rfl, rfl, rfl, rfl, rfl, rfl⟩

/-- A used slot, spelled out (R96, R100). -/
theorem State.closeSlot_eq (s : State) :
    s.closeSlot = if s.fault = none then { s with batch := s.batch.map (· + 1) } else { s with batch := none } := by
  unfold State.closeSlot
  split <;> simp_all

/-- The end of a batch, spelled out (R97 to R99). -/
theorem State.endBatch_eq (s : State) :
    s.endBatch = { s with
      dt := decay s.dt
      st := decay s.st
      tone := decide (decay s.st ≠ 0x00#8)
      visible := s.fb
      requests := .present :: (if decay s.st = 0x00#8 then .toneOff else .toneOn) :: s.requests } := by
  unfold State.endBatch State.requestTone
  by_cases h : decay s.st = 0x00#8
  · rw [if_pos (show s.decayTimers.st = 0x00#8 from h)]
    simp [State.present, State.decayTimers, h]
  · rw [if_neg (show ¬s.decayTimers.st = 0x00#8 from h)]
    simp [State.present, State.decayTimers, h]

/-- A timer goes down by one and not below 0 (R97). -/
theorem toNat_decay (b : Byte) : (decay b).toNat = b.toNat - 1 := by
  unfold decay
  split
  · rename_i h
    simp [h]
  · rename_i h
    have hb : b.toNat ≠ 0 := fun h' => h (BitVec.eq_of_toNat_eq (by simpa using h'))
    rw [BitVec.toNat_sub_of_le (BitVec.le_def.mpr (by simpa using Nat.one_le_iff_ne_zero.mpr hb))]
    rfl

/-- A `Tick` that reaches the core, spelled out (R95, R104). -/
theorem State.startTick_eq (s : State) :
    s.startTick = if s.fault = none then { s with batch := some 0 } else s := by
  unfold State.startTick
  split <;> simp_all

/-- The core's step at a slot of a `Tick` in flight. -/
theorem coreStep_of_slot {s : State} {used : Nat} (hf : s.fault = none) (hb : s.batch = some used)
    (hs : used < s.params.stepsPerTick) : coreStep s = mapNext State.closeSlot (stepSlot s) := by
  simp [coreStep, hf, hb, hs]

/-- The core's step at the end of the batch of a `Tick` in flight. -/
theorem coreStep_of_end {s : State} {used : Nat} (hf : s.fault = none) (hb : s.batch = some used)
    (hs : s.params.stepsPerTick ≤ used) : coreStep s = .next s.closeBatch := by
  simp [coreStep, hf, hb, Nat.not_lt.mpr hs]

/-- The core's step when no `Tick` is in flight (R95). -/
theorem coreStep_of_idle {s : State} (hb : s.batch = none) : coreStep s = .next s := by
  unfold coreStep
  rw [hb]
  cases s.fault <;> rfl

/-- The core's step while a fault is latched (R104). -/
theorem coreStep_of_fault {s : State} {c : Cause} (hf : s.fault = some c) : coreStep s = .next s := by
  simp [coreStep, hf]

/-- What a step of the core can be: nothing between two `Tick`s or while a fault is latched, a step slot, or the end of
a batch. -/
theorem coreStep_cases {s t : State} (h : coreStep s = .next t) :
    ((s.fault ≠ none ∨ s.batch = none) ∧ t = s) ∨
      (∃ used, s.fault = none ∧ s.batch = some used ∧ used < s.params.stepsPerTick ∧
        ∃ u, stepSlot s = .next u ∧ t = u.closeSlot) ∨
      (∃ used, s.fault = none ∧ s.batch = some used ∧ s.params.stepsPerTick ≤ used ∧ t = s.closeBatch) := by
  cases hf : s.fault with
  | some c =>
    rw [coreStep_of_fault hf] at h
    exact .inl ⟨.inl (by simp), (Host.Outcome.next.inj h).symm⟩
  | none =>
    cases hb : s.batch with
    | none =>
      rw [coreStep_of_idle hb] at h
      exact .inl ⟨.inr rfl, (Host.Outcome.next.inj h).symm⟩
    | some used =>
      by_cases hs : used < s.params.stepsPerTick
      · rw [coreStep_of_slot hf hb hs] at h
        obtain ⟨u, hu⟩ := stepSlot_next s
        rw [hu] at h
        exact .inr (.inl ⟨used, rfl, rfl, hs, u, hu, (Host.Outcome.next.inj h).symm⟩)
      · have hs' := Nat.not_lt.mp hs
        rw [coreStep_of_end hf hb hs'] at h
        exact .inr (.inr ⟨used, rfl, rfl, hs', (Host.Outcome.next.inj h).symm⟩)

/-- A step of the core always answers a next state. -/
theorem coreStep_next (s : State) : ∃ t, coreStep s = .next t := by
  unfold coreStep
  split
  · split
    · obtain ⟨u, hu⟩ := stepSlot_next s
      exact ⟨_, by rw [hu]; rfl⟩
    · exact ⟨_, rfl⟩
  · exact ⟨_, rfl⟩
  · exact ⟨_, rfl⟩

/-- A step of the core keeps the schedule: only taking a move off it changes it. -/
theorem coreStep_schedule {s t : State} (h : coreStep s = .next t) : t.schedule = s.schedule := by
  rcases coreStep_cases h with ⟨_, rfl⟩ | ⟨_, _, _, _, u, hu, rfl⟩ | ⟨_, _, _, _, rfl⟩
  · rfl
  · obtain ⟨_, _, _, _, _, hsched⟩ := stepSlot_untouched hu
    rw [State.closeSlot_eq]
    split <;> exact hsched
  · simp [State.closeBatch, State.endBatch_eq]

/-! ### Moves -/

/-- Key moves and loads may land here: at every step-slot boundary, or between two `Tick`s (R102). -/
theorem State.admitsEvents_iff (s : State) :
    s.admitsEvents = true ↔ s.params.keyDelivery = .stepBoundary ∨ s.batch = none := by
  simp [State.admitsEvents]

/-- The moves that have to wait are those that are not admitted. -/
theorem State.admits_eq_false_iff (s : State) (m : Move) : s.admits m = false ↔ s.Defers m := by
  have hk : s.params.keyDelivery ≠ .stepBoundary ↔ s.params.keyDelivery = .batchBoundary := by
    cases s.params.keyDelivery <;> simp
  cases m <;> simp [State.admits, State.admitsEvents, State.Defers, ← hk, and_comm]

/-- A move that is due where it may not land waits, and the step is the core's (log 28). -/
theorem step_of_deferred {s : State} {m : Move} {rest : List Move} (h : s.schedule = m :: rest)
    (ha : s.Defers m) : step s = coreStep s := by
  simp [step, nextStep, h, (s.admits_eq_false_iff m).mpr ha]

/-- A move that is due where it may land is taken off the schedule and applied. -/
theorem step_of_admitted {s : State} {m : Move} {rest : List Move} (h : s.schedule = m :: rest)
    (ha : s.admits m = true) : step s = applyMove m { s with schedule := rest } := by
  simp [step, nextStep, h, ha]

/-- With an empty schedule the step is the core's. -/
theorem step_of_empty {s : State} (h : s.schedule = []) : step s = coreStep s := by
  simp [step, nextStep, h]

/-- Where the core is the next to move the step is the core's, on the state with the schedule it leaves. -/
theorem step_of_coreIsNext {s : State} {rest : List Move} (h : s.CoreIsNext rest) :
    step s = coreStep { s with schedule := rest } := by
  rcases h with ⟨h, rfl⟩ | h | ⟨m, later, h, ha, rfl⟩
  · rw [step_of_empty h, ← h]
  · exact step_of_admitted h rfl
  · rw [step_of_deferred h ha, ← h]

/-- At a step slot the step is the slot, on the state with the schedule it leaves (R96). -/
theorem step_of_atSlot {s : State} {used : Nat} {rest : List Move} (h : s.AtSlot used rest) :
    step s = mapNext State.closeSlot (stepSlot { s with schedule := rest }) := by
  obtain ⟨hn, hf, hb, hs⟩ := h
  exact (step_of_coreIsNext hn).trans (coreStep_of_slot hf hb hs)

/-- With all slots used the step is the end of the batch, on the state with the schedule it leaves (R95). -/
theorem step_of_atBatchEnd {s : State} {rest : List Move} (h : s.AtBatchEnd rest) :
    step s = .next (State.closeBatch { s with schedule := rest }) := by
  obtain ⟨hn, hf, used, hb, hs⟩ := h
  exact (step_of_coreIsNext hn).trans (coreStep_of_end hf hb hs)

/-- What a step can be: a step of the core, where it is the next to move, or one move of the environment (R6, R102). -/
theorem step_cases {s t : State} (h : step s = .next t) :
    (∃ rest, s.CoreIsNext rest ∧ coreStep { s with schedule := rest } = .next t) ∨
      (∃ rest, s.schedule = .tick :: rest ∧ s.batch = none ∧ t = State.startTick { s with schedule := rest }) ∨
      (∃ k rest, s.schedule = .keyDown k :: rest ∧ t = State.keyDown { s with schedule := rest } k) ∨
      (∃ k rest, s.schedule = .keyUp k :: rest ∧ State.keyUp { s with schedule := rest } k = .next t) ∨
      (∃ image rest, s.schedule = .load image :: rest ∧ t = State.load { s with schedule := rest } image) := by
  have core {rest : List Move} (hn : s.CoreIsNext rest) :
      ∃ rest, s.CoreIsNext rest ∧ coreStep { s with schedule := rest } = .next t :=
    ⟨rest, hn, (step_of_coreIsNext hn).symm.trans h⟩
  cases hm : s.schedule with
  | nil => exact .inl (core (.inl ⟨hm, rfl⟩))
  | cons m rest =>
    cases ha : s.admits m with
    | false => exact .inl (core (.inr (.inr ⟨m, rest, hm, (s.admits_eq_false_iff m).mp ha, rfl⟩)))
    | true =>
      have h' := (step_of_admitted hm ha).symm.trans h
      cases m with
      | core => exact .inl (core (.inr (.inl hm)))
      | tick => exact .inr (.inl ⟨rest, rfl, of_decide_eq_true ha, (Host.Outcome.next.inj h').symm⟩)
      | keyDown k => exact .inr (.inr (.inl ⟨k, rest, rfl, (Host.Outcome.next.inj h').symm⟩))
      | keyUp k => exact .inr (.inr (.inr (.inl ⟨k, rest, rfl, h'⟩)))
      | load image => exact .inr (.inr (.inr (.inr ⟨image, rest, rfl, (Host.Outcome.next.inj h').symm⟩)))

/-- A run of the host's interface, one step further. -/
theorem run_succ_of_next {s t : State} (h : step s = .next t) (n : Nat) :
    Host.Core.run core (n + 1) s = Host.Core.run core n t := by
  have h' : core.step s = Host.Outcome.next t := h
  simp only [Host.Core.run, h']

/-- A key release: it ends a pending wait of a core that has not faulted, and does nothing otherwise (R101, R104). -/
theorem State.keyRelease_cases (s : State) (k : Key) :
    (s.fault = none ∧ (∃ r, s.wait = some r ∧ s.keyRelease k = { s.setReg r (keyCode k) with wait := none })) ∨
      s.keyRelease k = s := by
  unfold State.keyRelease
  split
  · rename_i r hf hw
    exact .inl ⟨hf, r, hw, rfl⟩
  · exact .inr rfl

/-- A key going up: the level falls and the release is delivered (R36). -/
theorem State.keyUp_next {s t : State} {k : Key} (h : s.keyUp k = .next t) :
    s.keys[k.val] = true ∧ t = State.keyRelease { s with keys := s.keys.set k.val false } k := by
  unfold State.keyUp at h
  split at h
  · rename_i hk
    exact ⟨hk, (Host.Outcome.next.inj h).symm⟩
  · cases h

/-- A load: the reset of the core with the image, or nothing but the answer (R200, R201). -/
theorem State.load_cases (s : State) (image : List Byte) :
    (image.length ≤ maxProgram ∧ s.load image = s.loaded image) ∨
      (maxProgram < image.length ∧
        s.load image = { s with requests := .programTooLarge image.length :: s.requests }) := by
  unfold State.load imageFits
  by_cases h : image.length ≤ maxProgram
  · exact .inl ⟨h, by simp [h]⟩
  · exact .inr ⟨Nat.lt_of_not_le h, by simp [h]⟩

end Sys2Proof.Machine
end

