-- ==== Sys2Proof/Laws/PerInstr.lean ====
section
/-! SUPPORT. The family of per-instruction laws named in LAWS.json. `EncodesInRow` says of an instruction, as syntax,
that it is well-formed, that its row is one of the 34 of spec/30_encoding.md R74, and that its encoding matches that
row's mask and match. -/

namespace Sys2Proof.Laws.EncodesInRow

/-- The instruction is well-formed and its encoding lies in its row of R74. -/
def Statement (i : Instr) : Prop :=
  i.wellFormed = true ∧ i.row ∈ opcodeRows ∧ i.row.matches (encodeWord i) = true

/-- A word of format `NNN` or `XKK` in a row that fixes only the family digit. -/
theorem matches_family (h b c d : BitVec 4) :
    Row.matches ⟨nibbles h 0 0 0, nibbles 0xF#4 0 0 0⟩ (nibbles h b c d) = true := by
  simp only [Row.matches, nibbles_and, beq_iff_eq, nibbles_inj]
  exact ⟨BitVec.and_allOnes, BitVec.and_zero, BitVec.and_zero, BitVec.and_zero⟩

/-- A word of format `XYN` in a row that fixes the family digit and the low digit. -/
theorem matches_lowDigit (h b c d : BitVec 4) :
    Row.matches ⟨nibbles h 0 0 d, nibbles 0xF#4 0 0 0xF#4⟩ (nibbles h b c d) = true := by
  simp only [Row.matches, nibbles_and, beq_iff_eq, nibbles_inj]
  exact ⟨BitVec.and_allOnes, BitVec.and_zero, BitVec.and_zero, BitVec.and_allOnes⟩

/-- A word of format `XKK` in a row that fixes the family digit and the low byte. -/
theorem matches_lowByte (h b c d : BitVec 4) :
    Row.matches ⟨nibbles h 0 c d, nibbles 0xF#4 0 0xF#4 0xF#4⟩ (nibbles h b c d) = true := by
  simp only [Row.matches, nibbles_and, beq_iff_eq, nibbles_inj]
  exact ⟨BitVec.and_allOnes, BitVec.and_zero, BitVec.and_allOnes, BitVec.and_allOnes⟩

/-- The digits of an address immediate. -/
theorem formatNNN_nibbles (h : BitVec 4) (nnn : Addr12) :
    formatNNN h nnn = nibbles h (regBits (fieldX (formatNNN h nnn))) (regBits (fieldY (formatNNN h nnn)))
      (fieldN (formatNNN h nnn)) := by
  conv_lhs => rw [← nibbles_fields (formatNNN h nnn), fieldH_formatNNN]

/-- The digits of a byte immediate. -/
theorem formatXKK_nibbles (h : BitVec 4) (x : Reg) (kk : Byte) :
    formatXKK h x kk = nibbles h (regBits x) (regBits (fieldY (formatXKK h x kk)))
      (fieldN (formatXKK h x kk)) := by
  conv_lhs => rw [← nibbles_fields (formatXKK h x kk), fieldH_formatXKK, fieldX_formatXKK]

theorem cls : Statement .cls :=
  ⟨rfl, by decide, by decide⟩

theorem ret : Statement .ret :=
  ⟨rfl, by decide, by decide⟩

theorem jp (nnn : Addr12) : Statement (.jp nnn) :=
  ⟨rfl, List.mem_map_of_mem (f := Instr.row) (a := Instr.jp 0) (by decide), (congrArg (Row.matches _) (formatNNN_nibbles 0x1#4 nnn)).trans (matches_family 0x1#4 _ _ _)⟩

theorem call (nnn : Addr12) : Statement (.call nnn) :=
  ⟨rfl, List.mem_map_of_mem (f := Instr.row) (a := Instr.call 0) (by decide), (congrArg (Row.matches _) (formatNNN_nibbles 0x2#4 nnn)).trans (matches_family 0x2#4 _ _ _)⟩

theorem seImm (x : Reg) (kk : Byte) : Statement (.seImm x kk) :=
  ⟨rfl, List.mem_map_of_mem (f := Instr.row) (a := Instr.seImm 0 0) (by decide), (congrArg (Row.matches _) (formatXKK_nibbles 0x3#4 x kk)).trans (matches_family 0x3#4 _ _ _)⟩

theorem sneImm (x : Reg) (kk : Byte) : Statement (.sneImm x kk) :=
  ⟨rfl, List.mem_map_of_mem (f := Instr.row) (a := Instr.sneImm 0 0) (by decide), (congrArg (Row.matches _) (formatXKK_nibbles 0x4#4 x kk)).trans (matches_family 0x4#4 _ _ _)⟩

theorem seReg (x : Reg) (y : Reg) : Statement (.seReg x y) :=
  ⟨rfl, List.mem_map_of_mem (f := Instr.row) (a := Instr.seReg 0 0) (by decide), matches_lowDigit 0x5#4 (regBits x) (regBits y) 0x0#4⟩

theorem sneReg (x : Reg) (y : Reg) : Statement (.sneReg x y) :=
  ⟨rfl, List.mem_map_of_mem (f := Instr.row) (a := Instr.sneReg 0 0) (by decide), matches_lowDigit 0x9#4 (regBits x) (regBits y) 0x0#4⟩

theorem ldImm (x : Reg) (kk : Byte) : Statement (.ldImm x kk) :=
  ⟨rfl, List.mem_map_of_mem (f := Instr.row) (a := Instr.ldImm 0 0) (by decide), (congrArg (Row.matches _) (formatXKK_nibbles 0x6#4 x kk)).trans (matches_family 0x6#4 _ _ _)⟩

theorem addImm (x : Reg) (kk : Byte) : Statement (.addImm x kk) :=
  ⟨rfl, List.mem_map_of_mem (f := Instr.row) (a := Instr.addImm 0 0) (by decide), (congrArg (Row.matches _) (formatXKK_nibbles 0x7#4 x kk)).trans (matches_family 0x7#4 _ _ _)⟩

theorem ldReg (x : Reg) (y : Reg) : Statement (.ldReg x y) :=
  ⟨rfl, List.mem_map_of_mem (f := Instr.row) (a := Instr.ldReg 0 0) (by decide), matches_lowDigit 0x8#4 (regBits x) (regBits y) 0x0#4⟩

theorem or (x : Reg) (y : Reg) : Statement (.or x y) :=
  ⟨rfl, List.mem_map_of_mem (f := Instr.row) (a := Instr.or 0 0) (by decide), matches_lowDigit 0x8#4 (regBits x) (regBits y) 0x1#4⟩

theorem and (x : Reg) (y : Reg) : Statement (.and x y) :=
  ⟨rfl, List.mem_map_of_mem (f := Instr.row) (a := Instr.and 0 0) (by decide), matches_lowDigit 0x8#4 (regBits x) (regBits y) 0x2#4⟩

theorem xor (x : Reg) (y : Reg) : Statement (.xor x y) :=
  ⟨rfl, List.mem_map_of_mem (f := Instr.row) (a := Instr.xor 0 0) (by decide), matches_lowDigit 0x8#4 (regBits x) (regBits y) 0x3#4⟩

theorem addReg (x : Reg) (y : Reg) : Statement (.addReg x y) :=
  ⟨rfl, List.mem_map_of_mem (f := Instr.row) (a := Instr.addReg 0 0) (by decide), matches_lowDigit 0x8#4 (regBits x) (regBits y) 0x4#4⟩

theorem sub (x : Reg) (y : Reg) : Statement (.sub x y) :=
  ⟨rfl, List.mem_map_of_mem (f := Instr.row) (a := Instr.sub 0 0) (by decide), matches_lowDigit 0x8#4 (regBits x) (regBits y) 0x5#4⟩

theorem shr (x : Reg) (y : Reg) : Statement (.shr x y) :=
  ⟨rfl, List.mem_map_of_mem (f := Instr.row) (a := Instr.shr 0 0) (by decide), matches_lowDigit 0x8#4 (regBits x) (regBits y) 0x6#4⟩

theorem subn (x : Reg) (y : Reg) : Statement (.subn x y) :=
  ⟨rfl, List.mem_map_of_mem (f := Instr.row) (a := Instr.subn 0 0) (by decide), matches_lowDigit 0x8#4 (regBits x) (regBits y) 0x7#4⟩

theorem shl (x : Reg) (y : Reg) : Statement (.shl x y) :=
  ⟨rfl, List.mem_map_of_mem (f := Instr.row) (a := Instr.shl 0 0) (by decide), matches_lowDigit 0x8#4 (regBits x) (regBits y) 0xE#4⟩

theorem ldI (nnn : Addr12) : Statement (.ldI nnn) :=
  ⟨rfl, List.mem_map_of_mem (f := Instr.row) (a := Instr.ldI 0) (by decide), (congrArg (Row.matches _) (formatNNN_nibbles 0xA#4 nnn)).trans (matches_family 0xA#4 _ _ _)⟩

theorem jpV0 (nnn : Addr12) : Statement (.jpV0 nnn) :=
  ⟨rfl, List.mem_map_of_mem (f := Instr.row) (a := Instr.jpV0 0) (by decide), (congrArg (Row.matches _) (formatNNN_nibbles 0xB#4 nnn)).trans (matches_family 0xB#4 _ _ _)⟩

theorem rnd (x : Reg) (kk : Byte) : Statement (.rnd x kk) :=
  ⟨rfl, List.mem_map_of_mem (f := Instr.row) (a := Instr.rnd 0 0) (by decide), (congrArg (Row.matches _) (formatXKK_nibbles 0xC#4 x kk)).trans (matches_family 0xC#4 _ _ _)⟩

theorem drw (x : Reg) (y : Reg) (n : BitVec 4) : Statement (.drw x y n) :=
  ⟨rfl, List.mem_map_of_mem (f := Instr.row) (a := Instr.drw 0 0 0) (by decide), matches_family 0xD#4 (regBits x) (regBits y) n⟩

theorem skp (x : Reg) : Statement (.skp x) :=
  ⟨rfl, List.mem_map_of_mem (f := Instr.row) (a := Instr.skp 0) (by decide), matches_lowByte 0xE#4 (regBits x) 0x9#4 0xE#4⟩

theorem sknp (x : Reg) : Statement (.sknp x) :=
  ⟨rfl, List.mem_map_of_mem (f := Instr.row) (a := Instr.sknp 0) (by decide), matches_lowByte 0xE#4 (regBits x) 0xA#4 0x1#4⟩

theorem ldVxDT (x : Reg) : Statement (.ldVxDT x) :=
  ⟨rfl, List.mem_map_of_mem (f := Instr.row) (a := Instr.ldVxDT 0) (by decide), matches_lowByte 0xF#4 (regBits x) 0x0#4 0x7#4⟩

theorem ldVxK (x : Reg) : Statement (.ldVxK x) :=
  ⟨rfl, List.mem_map_of_mem (f := Instr.row) (a := Instr.ldVxK 0) (by decide), matches_lowByte 0xF#4 (regBits x) 0x0#4 0xA#4⟩

theorem ldDTVx (x : Reg) : Statement (.ldDTVx x) :=
  ⟨rfl, List.mem_map_of_mem (f := Instr.row) (a := Instr.ldDTVx 0) (by decide), matches_lowByte 0xF#4 (regBits x) 0x1#4 0x5#4⟩

theorem ldSTVx (x : Reg) : Statement (.ldSTVx x) :=
  ⟨rfl, List.mem_map_of_mem (f := Instr.row) (a := Instr.ldSTVx 0) (by decide), matches_lowByte 0xF#4 (regBits x) 0x1#4 0x8#4⟩

theorem addI (x : Reg) : Statement (.addI x) :=
  ⟨rfl, List.mem_map_of_mem (f := Instr.row) (a := Instr.addI 0) (by decide), matches_lowByte 0xF#4 (regBits x) 0x1#4 0xE#4⟩

theorem ldF (x : Reg) : Statement (.ldF x) :=
  ⟨rfl, List.mem_map_of_mem (f := Instr.row) (a := Instr.ldF 0) (by decide), matches_lowByte 0xF#4 (regBits x) 0x2#4 0x9#4⟩

theorem ldB (x : Reg) : Statement (.ldB x) :=
  ⟨rfl, List.mem_map_of_mem (f := Instr.row) (a := Instr.ldB 0) (by decide), matches_lowByte 0xF#4 (regBits x) 0x3#4 0x3#4⟩

theorem stRegs (x : Reg) : Statement (.stRegs x) :=
  ⟨rfl, List.mem_map_of_mem (f := Instr.row) (a := Instr.stRegs 0) (by decide), matches_lowByte 0xF#4 (regBits x) 0x5#4 0x5#4⟩

theorem ldRegs (x : Reg) : Statement (.ldRegs x) :=
  ⟨rfl, List.mem_map_of_mem (f := Instr.row) (a := Instr.ldRegs 0) (by decide), matches_lowByte 0xF#4 (regBits x) 0x6#4 0x5#4⟩

end Sys2Proof.Laws.EncodesInRow
end

