-- ==== Sys2Proof/Tests/Slice0.lean ====
section
/-! SUPPORT. The model's own tests: small steps whose expected results are the vectors of spec/95_test_vectors.md
(T, S and P numbers) or are worked by hand from the cited rule, the well-formedness checks, every constructor's
decoding, and for each statement with hypotheses a witness that meets them. -/

namespace Sys2Proof.Tests

open Sys2Proof Sys2Proof.Machine

/-! ### Helpers -/

/-- The reset state with registers overwritten. -/
def withRegs (regs : List (Reg × Byte)) : State := regs.foldl (fun s p => s.setReg p.1 p.2) State.reset

/-- A state with memory bytes overwritten. -/
def withBytes (s : State) (a : Nat) (bytes : List Byte) : State := { s with mem := Memory.writeBytes s.mem a bytes }

/-- What one step of the machine on one placed word leaves, checked by a predicate; false if the step stops. -/
def afterWord (s : State) (w : Nat) (check : State → Bool) : Bool :=
  match step (s.withFetchWord 16 w) with
  | .next t => check t
  | .fault _ => false
  | .refused _ => false

/-- A state inside a `Tick` with so many step slots used. -/
def inTick (used : Nat) (s : State) : State := { s with batch := some used }

/-- What one step of the machine leaves, checked by a predicate; false if the step stops. -/
def afterStep (s : State) (check : State → Bool) : Bool :=
  match step s with
  | .next t => check t
  | .fault _ => false
  | .refused _ => false

/-- The reset state with room for `depth` stack entries. -/
def withDepth (depth : Nat) (stack : List Word) : State :=
  { State.reset with params := { Params.default with stackDepth := some depth }, stack := stack }

/-- The reset state with key `k` down and one register set. -/
def withKey (k : Key) (r : Reg) (b : Byte) : State := (withRegs [(r, b)]).keyDown k

/-! ### Well-formedness -/

/-- R5: `STACK_DEPTH` is at least 1. -/
theorem test_params_zero_depth_refused :
    Params.wellFormed { Params.default with stackDepth := some 0 } = false := by decide

/-- R5: the least finite `STACK_DEPTH`. -/
theorem test_params_depth_one_accepted :
    Params.wellFormed { Params.default with stackDepth := some 1 } = true := by decide

/-- R5: the defaults. -/
theorem test_params_default_accepted :
    Params.default.wellFormed = true := by decide

/-- S4: 3585 bytes are too many. -/
theorem test_image_of_3585_refused :
    imageFits (List.replicate 3585 0xAB#8) = false := decide_eq_false (by rw [List.length_replicate]; decide)

/-- S4: exactly 3584 bytes fit. -/
theorem test_image_of_3584_accepted :
    imageFits (List.replicate 3584 0xAB#8) = true := decide_eq_true (by rw [List.length_replicate]; decide)

/-- R201: the empty image is accepted. -/
theorem test_image_empty_accepted :
    imageFits [] = true := by decide

/-! ### Decoding (spec/95_test_vectors.md Part 4) -/

/-- Every instruction of the family, from its word. -/
theorem test_decode_flow :
    decodeTableWord 16 0x1ABC = some (.jp 0xABC#12) ∧
    decodeTableWord 16 0x2FFF = some (.call 0xFFF#12) ∧
    decodeTableWord 16 0x3A3C = some (.seImm 0xA 0x3C#8) ∧
    decodeTableWord 16 0x4B00 = some (.sneImm 0xB 0x00#8) ∧
    decodeTableWord 16 0x5CD0 = some (.seReg 0xC 0xD) ∧
    decodeTableWord 16 0x9CD0 = some (.sneReg 0xC 0xD) ∧
    decodeTableWord 16 0xB2F0 = some (.jpV0 0x2F0#12) ∧
    decodeTableWord 16 0x00EE = some (.ret) := by decide

/-- Every instruction of the family, from its word. -/
theorem test_decode_display :
    decodeTableWord 16 0x00E0 = some (.cls) ∧
    decodeTableWord 16 0xD125 = some (.drw 0x1 0x2 0x5#4) := by decide

/-- Every instruction of the family, from its word. -/
theorem test_decode_alu :
    decodeTableWord 16 0x6E7F = some (.ldImm 0xE 0x7F#8) ∧
    decodeTableWord 16 0x7F01 = some (.addImm 0xF 0x01#8) ∧
    decodeTableWord 16 0x8AB0 = some (.ldReg 0xA 0xB) ∧
    decodeTableWord 16 0x8AB1 = some (.or 0xA 0xB) ∧
    decodeTableWord 16 0x8AB2 = some (.and 0xA 0xB) ∧
    decodeTableWord 16 0x8AB3 = some (.xor 0xA 0xB) ∧
    decodeTableWord 16 0x8AB4 = some (.addReg 0xA 0xB) ∧
    decodeTableWord 16 0x8AB5 = some (.sub 0xA 0xB) ∧
    decodeTableWord 16 0x8AB6 = some (.shr 0xA 0xB) ∧
    decodeTableWord 16 0x8AB7 = some (.subn 0xA 0xB) ∧
    decodeTableWord 16 0x8ABE = some (.shl 0xA 0xB) ∧
    decodeTableWord 16 0xC5F0 = some (.rnd 0x5 0xF0#8) := by decide

/-- Every instruction of the family, from its word. -/
theorem test_decode_index_memory :
    decodeTableWord 16 0xA2F0 = some (.ldI 0x2F0#12) ∧
    decodeTableWord 16 0xF41E = some (.addI 0x4) ∧
    decodeTableWord 16 0xF429 = some (.ldF 0x4) ∧
    decodeTableWord 16 0xF433 = some (.ldB 0x4) ∧
    decodeTableWord 16 0xF455 = some (.stRegs 0x4) ∧
    decodeTableWord 16 0xF465 = some (.ldRegs 0x4) := by decide

/-- Every instruction of the family, from its word. -/
theorem test_decode_keys_timers :
    decodeTableWord 16 0xE39E = some (.skp 0x3) ∧
    decodeTableWord 16 0xE3A1 = some (.sknp 0x3) ∧
    decodeTableWord 16 0xF407 = some (.ldVxDT 0x4) ∧
    decodeTableWord 16 0xF40A = some (.ldVxK 0x4) ∧
    decodeTableWord 16 0xF415 = some (.ldDTVx 0x4) ∧
    decodeTableWord 16 0xF418 = some (.ldSTVx 0x4) := by decide

/-- R55: bytes 12 34 are the word 1234, `JP 0x234`. -/
theorem test_decode_is_big_endian :
    decode [0x12#8, 0x34#8, 0x56#8] = .ok (.jp 0x234#12, [0x56#8]) := by decide

/-- T150 to T159: these words are no instructions. -/
theorem test_decode_unrecognised :
    [0x0000, 0x0123, 0x00E1, 0x5121, 0x9121, 0x8128, 0x812F, 0xE19F, 0xF100, 0xF175].all
      (fun w => decide (decodeTableWord 16 w = none)) = true := by decide

/-- R70: one byte is no instruction. -/
theorem test_decode_truncated :
    decode [0x12#8] = .error (.truncated [0x12#8]) := by decide

/-- R72: `SUB VA, VB` is stored as 8A B5. -/
theorem test_encode_word :
    encode (.sub 0xA 0xB) = [0x8A#8, 0xB5#8] := by decide

/-! ### Control transfer -/

/-- T70: absolute target. -/
theorem test_jp :
    afterWord State.reset 0x1ABC (fun t => t.pc == 0x0ABC#16) = true := by decide

/-- T71: the advanced pc is pushed. -/
theorem test_call :
    afterWord State.reset 0x2ABC (fun t => t.pc == 0x0ABC#16 && t.stack == [0x202#16]) = true := by decide

/-- T90: the third push on a stack of depth 2. -/
theorem test_call_full :
    afterWord (withDepth 2 [0x202#16, 0x202#16]) 0x2200 (fun t => t.fault == some (.stackOverflow 0x202#16) && t.pc == 0x0200#16 && t.stack == [0x202#16, 0x202#16]) = true := by decide

/-- T72: last in, first out. -/
theorem test_ret :
    afterWord { State.reset with stack := [0x30A#16, 0x206#16] } 0x00EE (fun t => t.pc == 0x030A#16 && t.stack == [0x206#16]) = true := by decide

/-- T73: underflow, pc stays. -/
theorem test_ret_empty :
    afterWord State.reset 0x00EE (fun t => t.fault == some .stackUnderflow && t.pc == 0x0200#16) = true := by decide

/-- T75: the sum is not reduced. -/
theorem test_jpV0 :
    afterWord (withRegs [(0x0, 0xFF#8)]) 0xBFFF (fun t => t.pc == 0x10FE#16 && t.fault == none) = true := by decide

/-- T74: the offset is V0. -/
theorem test_jpV0_offset :
    afterWord (withRegs [(0x0, 0x04#8), (0x3, 0x55#8)]) 0xB300 (fun t => t.pc == 0x0304#16) = true := by decide

/-- T77: equal, skip. -/
theorem test_seImm_taken :
    afterWord (withRegs [(0xA, 0x3C#8)]) 0x3A3C (fun t => t.pc == 0x0204#16) = true := by decide

/-- T78: different, no skip. -/
theorem test_seImm_not_taken :
    afterWord (withRegs [(0xA, 0x3C#8)]) 0x3A3D (fun t => t.pc == 0x0202#16) = true := by decide

/-- T79: equal, no skip. -/
theorem test_sneImm_not_taken :
    afterWord (withRegs [(0xA, 0x3C#8)]) 0x4A3C (fun t => t.pc == 0x0202#16) = true := by decide

/-- T80: different, skip. -/
theorem test_sneImm_taken :
    afterWord (withRegs [(0xA, 0x3C#8)]) 0x4A3D (fun t => t.pc == 0x0204#16) = true := by decide

/-- T81: equal, skip. -/
theorem test_seReg_taken :
    afterWord (withRegs [(0x1, 0x07#8), (0x2, 0x07#8)]) 0x5120 (fun t => t.pc == 0x0204#16) = true := by decide

/-- T82: different, no skip. -/
theorem test_seReg_not_taken :
    afterWord (withRegs [(0x1, 0x07#8), (0x2, 0x08#8)]) 0x5120 (fun t => t.pc == 0x0202#16) = true := by decide

/-- T83: different, skip. -/
theorem test_sneReg_taken :
    afterWord (withRegs [(0x1, 0x07#8), (0x2, 0x08#8)]) 0x9120 (fun t => t.pc == 0x0204#16) = true := by decide

/-- T84: equal, no skip. -/
theorem test_sneReg_not_taken :
    afterWord (withRegs [(0x1, 0x07#8), (0x2, 0x07#8)]) 0x9120 (fun t => t.pc == 0x0202#16) = true := by decide

/-- T85, second step: the second byte of the word is out of range. -/
theorem test_fetch_fault_at_last_byte :
    afterStep (inTick 0 { State.reset with pc := 0xFFF#16 }) (fun t =>
      t.fault == some (.memoryOutOfRange 0x1000) && t.pc == 0xFFF#16 && t.batch == none) = true := by decide

/-- T76: the recorded address is the pc. -/
theorem test_fetch_fault_above_memory :
    afterStep (inTick 0 { State.reset with pc := 0x10FE#16 }) (fun t => t.fault == some (.memoryOutOfRange 0x10FE)) = true := by decide

/-- T88: an odd pc fetches normally. -/
theorem test_fetch_at_odd_address :
    afterStep (inTick 0 { (withBytes State.reset 0x301 [0x6A#8, 0x3C#8]) with pc := 0x301#16 }) (fun t =>
      t.reg 0xA == 0x3C#8 && t.pc == 0x303#16) = true := by decide

/-- T150: zero-filled memory runs as no-operations. -/
theorem test_zeros_run_as_nop :
    afterStep (inTick 0 State.reset) (fun t => t.pc == 0x202#16 && t.fault == none && t.batch == some 1) = true := by decide

/-! ### Arithmetic, logic, shifts -/

/-- T33. -/
theorem test_ldImm :
    afterWord State.reset 0x6A3C (fun t => t.reg 0xA == 0x3C#8) = true := by decide

/-- T31: the source's 200 + 100 = 44; VF untouched. -/
theorem test_addImm :
    afterWord (withRegs [(0x1, 0xC8#8), (0xF, 0x09#8)]) 0x7164 (fun t => t.reg 0x1 == 0x2C#8 && t.reg 0xF == 0x09#8) = true := by decide

/-- T32: VF as an ordinary destination wraps. -/
theorem test_addImm_vf :
    afterWord (withRegs [(0xF, 0xFF#8)]) 0x7F01 (fun t => t.reg 0xF == 0x00#8) = true := by decide

/-- T24: VF untouched. -/
theorem test_ldReg :
    afterWord (withRegs [(0x1, 0x11#8), (0x2, 0x22#8), (0xF, 0x77#8)]) 0x8120 (fun t => t.reg 0x1 == 0x22#8 && t.reg 0xF == 0x77#8) = true := by decide

/-- T21: VF forced to 0. -/
theorem test_or :
    afterWord (withRegs [(0x1, 0xF0#8), (0x2, 0x0F#8), (0xF, 0x77#8)]) 0x8121 (fun t => t.reg 0x1 == 0xFF#8 && t.reg 0xF == 0x00#8) = true := by decide

/-- T57: the 0 remains for x = 15. -/
theorem test_or_vf :
    afterWord (withRegs [(0xF, 0xF0#8), (0x2, 0x0F#8)]) 0x8F21 (fun t => t.reg 0xF == 0x00#8) = true := by decide

/-- T22. -/
theorem test_and :
    afterWord (withRegs [(0x1, 0xF0#8), (0x2, 0x3C#8), (0xF, 0x77#8)]) 0x8122 (fun t => t.reg 0x1 == 0x30#8 && t.reg 0xF == 0x00#8) = true := by decide

/-- T23. -/
theorem test_xor :
    afterWord (withRegs [(0x1, 0xFF#8), (0x2, 0x0F#8), (0xF, 0x77#8)]) 0x8123 (fun t => t.reg 0x1 == 0xF0#8 && t.reg 0xF == 0x00#8) = true := by decide

/-- T2: the largest sum. -/
theorem test_addReg_carry :
    afterWord (withRegs [(0x1, 0xFF#8), (0x2, 0xFF#8), (0xF, 0x77#8)]) 0x8124 (fun t => t.reg 0x1 == 0xFE#8 && t.reg 0xF == 0x01#8) = true := by decide

/-- T60: the carry remains for x = 15. -/
theorem test_addReg_vf :
    afterWord (withRegs [(0xF, 0xC8#8), (0x2, 0x64#8)]) 0x8F24 (fun t => t.reg 0xF == 0x01#8) = true := by decide

/-- T6: 1 - 2. -/
theorem test_sub_wraps :
    afterWord (withRegs [(0x1, 0x01#8), (0x2, 0x02#8), (0xF, 0x77#8)]) 0x8125 (fun t => t.reg 0x1 == 0xFF#8 && t.reg 0xF == 0x00#8) = true := by decide

/-- T62 under `flag_last`. -/
theorem test_sub_vf_flag_last :
    afterWord { withRegs [(0xF, 0x05#8), (0x2, 0x01#8)] with params := { Params.default with vfWriteOrder := .flagLast } } 0x8F25 (fun t => t.reg 0xF == 0x01#8) = true := by decide

/-- T13: y ignored, the low bit goes to VF. -/
theorem test_shr :
    afterWord (withRegs [(0x1, 0x05#8), (0x2, 0xAA#8)]) 0x8126 (fun t => t.reg 0x1 == 0x02#8 && t.reg 0xF == 0x01#8 && t.reg 0x2 == 0xAA#8) = true := by decide

/-- T64 under `flag_last`. -/
theorem test_shr_vf_flag_last :
    afterWord { withRegs [(0xF, 0x05#8)] with params := { Params.default with vfWriteOrder := .flagLast } } 0x8F26 (fun t => t.reg 0xF == 0x01#8) = true := by decide

/-- T11: 3 - 10. -/
theorem test_subn :
    afterWord (withRegs [(0x1, 0x0A#8), (0x2, 0x03#8), (0xF, 0x77#8)]) 0x8127 (fun t => t.reg 0x1 == 0xF9#8 && t.reg 0xF == 0x00#8) = true := by decide

/-- T65b: the difference remains for x = 15. -/
theorem test_subn_vf :
    afterWord (withRegs [(0xF, 0x05#8), (0x2, 0x01#8)]) 0x8F27 (fun t => t.reg 0xF == 0xFC#8) = true := by decide

/-- T17: y ignored, the high bit goes to VF. -/
theorem test_shl :
    afterWord (withRegs [(0x1, 0x81#8), (0x2, 0xAA#8)]) 0x812E (fun t => t.reg 0x1 == 0x02#8 && t.reg 0xF == 0x01#8 && t.reg 0x2 == 0xAA#8) = true := by decide

/-- T69: the shifted value remains for x = y = 15. -/
theorem test_shl_vf :
    afterWord (withRegs [(0xF, 0x91#8)]) 0x8FFE (fun t => t.reg 0xF == 0x22#8) = true := by decide

/-- T36: the mask 00 gives 0 whatever the byte. -/
theorem test_rnd_mask_zero :
    (execRnd 0xF 0x00#8 State.reset = .next ((State.reset.advance.drawByte.2).setReg 0xF 0x00#8)) := by simp [execRnd]

/-- R141: one byte is drawn at every execution. -/
theorem test_rnd_draws_once :
    afterWord State.reset 0xC100 (fun t => t.draws == 1) = true := by decide

/-! ### Index register and memory -/

/-- T100. -/
theorem test_ldI :
    afterWord State.reset 0xA123 (fun t => t.idx == 0x123#16) = true := by decide

/-- T103: wraps at 16 bits. -/
theorem test_addI_wraps :
    afterWord { withRegs [(0x2, 0x02#8)] with idx := 0xFFFF#16 } 0xF21E (fun t => t.idx == 0x0001#16) = true := by decide

/-- T102: no flag and no fault above 0xFFF. -/
theorem test_addI_leaves_range :
    afterWord { withRegs [(0x2, 0x01#8)] with idx := 0x0FFF#16 } 0xF21E (fun t => t.idx == 0x1000#16 && t.reg 0xF == 0x00#8 && t.fault == none) = true := by decide

/-- T104: glyph 9. -/
theorem test_ldF :
    afterWord (withRegs [(0x0, 0x09#8)]) 0xF029 (fun t => t.idx == 0x002D#16) = true := by decide

/-- T105: the whole byte is multiplied. -/
theorem test_ldF_no_mask :
    afterWord (withRegs [(0x0, 0xFF#8)]) 0xF029 (fun t => t.idx == 0x04FB#16) = true := by decide

/-- T107: the last legal place. -/
theorem test_ldB :
    afterWord { withRegs [(0x0, 0x7B#8)] with idx := 0x0FFD#16 } 0xF033 (fun t => Memory.readBytes t.mem 0xFFD 3 == [0x01#8, 0x02#8, 0x03#8] && t.idx == 0xFFD#16) = true := by decide

/-- T108: nothing is written. -/
theorem test_ldB_fault :
    afterWord { withBytes (withRegs [(0x0, 0x7B#8)]) 0xFFE [0xAA#8, 0xBB#8] with idx := 0xFFE#16 } 0xF033 (fun t => t.fault == some (.memoryOutOfRange 0x1000) && t.pc == 0x0200#16 && Memory.readBytes t.mem 0xFFE 2 == [0xAA#8, 0xBB#8]) = true := by decide

/-- R154, the example: V0 and V1 stored at I, I unchanged. -/
theorem test_stRegs :
    afterWord { withRegs [(0x0, 0x62#8), (0x1, 0x77#8)] with idx := 0x0208#16 } 0xF155 (fun t => Memory.readBytes t.mem 0x208 2 == [0x62#8, 0x77#8] && t.idx == 0x208#16 && Memory.readBytes t.mem 0x20A 1 == [0x00#8]) = true := by decide

/-- T109h: the font region is writable. -/
theorem test_stRegs_font :
    afterWord { withRegs [(0x0, 0xAA#8)] with idx := 0x0000#16 } 0xF055 (fun t => Memory.readBytes t.mem 0x000 2 == [0xAA#8, 0x90#8]) = true := by decide

/-- T109f: glyph 9 from the font; V3 untouched. -/
theorem test_ldRegs :
    afterWord { withRegs [(0x3, 0x99#8)] with idx := 0x002D#16 } 0xF265 (fun t => t.reg 0x0 == 0xF0#8 && t.reg 0x1 == 0x90#8 && t.reg 0x2 == 0xF0#8 && t.reg 0x3 == 0x99#8 && t.idx == 0x2D#16) = true := by decide

/-- T109g: no register is loaded. -/
theorem test_ldRegs_fault :
    afterWord { withRegs [(0x0, 0x01#8), (0x1, 0x02#8)] with idx := 0x0FFF#16 } 0xF165 (fun t => t.fault == some (.memoryOutOfRange 0x1000) && t.reg 0x0 == 0x01#8 && t.reg 0x1 == 0x02#8 && t.pc == 0x0200#16) = true := by decide

/-! ### Display -/

/-- T128: CLS writes no flag. -/
theorem test_cls :
    afterWord { withRegs [(0xF, 0x07#8)] with fb := Frame.clear.toggle 3 5 } 0x00E0 (fun t => t.fb == Frame.clear && t.reg 0xF == 0x07#8) = true := by decide

/-- T121 and T122 together: coordinates 255 are (63, 31), and the wrapped pixel (row 31, column 0) collides. -/
theorem test_drw_wraps_and_collides :
    afterWord { withBytes (withRegs [(0x1, 0xFF#8), (0x2, 0xFF#8)]) 0x300 [0xC0#8] with
      idx := 0x300#16, fb := Frame.clear.toggle 31 0 } 0xD121 (fun t => t.fb == Frame.clear.toggle 31 63 && t.reg 0xF == 0x01#8) = true := by decide

/-- T127 under `live`: the column is the cleared VF. -/
theorem test_drw_vf_live :
    afterWord { withBytes (withRegs [(0xF, 0x05#8), (0x1, 0x02#8)]) 0x300 [0x80#8] with
      idx := 0x300#16, params := { Params.default with drwVfOperand := .live } } 0xDF11 (fun t => t.fb == Frame.clear.toggle 2 0) = true := by decide

/-! ### Keys and timers -/

/-- T130. -/
theorem test_skp_down :
    afterWord (withKey 5 0x0 0x05#8) 0xE09E (fun t => t.pc == 0x0204#16) = true := by decide

/-- T135: a code above 15 is not pressed. -/
theorem test_skp_no_mask :
    afterWord (withKey 0 0x0 0x10#8) 0xE09E (fun t => t.pc == 0x0202#16) = true := by decide

/-- T132. -/
theorem test_sknp_down :
    afterWord (withKey 5 0x0 0x05#8) 0xE0A1 (fun t => t.pc == 0x0202#16) = true := by decide

/-- T136: a code above 15 skips. -/
theorem test_sknp_no_mask :
    afterWord (withKey 0 0x0 0x10#8) 0xE0A1 (fun t => t.pc == 0x0204#16) = true := by decide

/-- T117. -/
theorem test_ldVxDT :
    afterWord { State.reset with dt := 0x2A#8 } 0xF007 (fun t => t.reg 0x0 == 0x2A#8 && t.dt == 0x2A#8) = true := by decide

/-- T138: the step itself loads nothing. -/
theorem test_ldVxK :
    afterWord (withRegs [(0x3, 0x99#8)]) 0xF30A (fun t => t.wait == some 3 && t.pc == 0x0202#16 && t.reg 0x3 == 0x99#8) = true := by decide

/-- T118. -/
theorem test_ldDTVx :
    afterWord (withRegs [(0x0, 0xFF#8)]) 0xF015 (fun t => t.dt == 0xFF#8 && t.st == 0x00#8) = true := by decide

/-- T118; no tone request is made. -/
theorem test_ldSTVx :
    afterWord (withRegs [(0x0, 0xFF#8)]) 0xF018 (fun t => t.st == 0xFF#8 && t.dt == 0x00#8 && t.requests == []) = true := by decide

/-- T141: VF as the target of the wait. -/
theorem test_key_release_loads :
    (State.keyRelease { State.reset with wait := some 0xF } 1).reg 0xF = 0x01#8 ∧
    (State.keyRelease { State.reset with wait := some 0xF } 1).wait = none := by decide

/-- T140: no pending wait, no effect. -/
theorem test_key_release_ignored :
    State.keyRelease State.reset 0xB = State.reset := rfl

/-- P4: a press does not end the wait. -/
theorem test_key_down_does_not_end_wait :
    afterStep { State.reset with wait := some 1, schedule := [.keyDown 7] } (fun t =>
      t.wait == some 1 && t.keys[7]) = true := by decide

/-- P4: the release loads the key's code. -/
theorem test_key_up_ends_wait :
    afterStep { (State.keyDown State.reset 7) with wait := some 1, schedule := [.keyUp 7] } (fun t =>
      t.wait == none && t.reg 1 == 0x07#8 && !t.keys[7]) = true := by decide

/-- R36: the move is not allowed. -/
theorem test_key_up_of_released_key :
    step { State.reset with schedule := [.keyUp 7] } = .fault (.keyUpWithoutKeyDown 7) := rfl

/-- T142: timers and tone while paused. -/
theorem test_batch_end_while_waiting :
    afterStep { State.reset with wait := some 3, dt := 0x02#8, st := 0x02#8, batch := some 10 } (fun t =>
      t.dt == 0x01#8 && t.st == 0x01#8 && t.requests == [.present, .toneOn] && t.tone && t.wait == some 3 &&
        t.batch == none) = true := by decide

/-- T113: a sound timer of 1 never sounds. -/
theorem test_batch_end_sound_one :
    afterStep { State.reset with st := 0x01#8, batch := some 10 } (fun t =>
      t.st == 0x00#8 && t.requests == [.present, .toneOff] && !t.tone) = true := by decide

/-- T115: no decay and no request after the fault. -/
theorem test_fault_ends_batch :
    afterWord { State.reset with dt := 0x05#8, batch := some 2 } 0x00EE (fun t =>
      t.dt == 0x05#8 && t.requests == [] && t.batch == none && t.fault == some .stackUnderflow) = true := by decide

/-- T116: nothing changes. -/
theorem test_faulted_core_is_halted :
    step { State.reset with fault := some .stackUnderflow } = .next { State.reset with fault := some .stackUnderflow } := rfl

/-- R203: the first byte is the high byte at 0x200. -/
theorem test_load_places_program :
    Memory.readBytes (State.load State.reset [0x12#8, 0x34#8]).mem 0x1FF 4 = [0x00#8, 0x12#8, 0x34#8, 0x00#8] := by decide

/-- R191, R204: a load due at a step lands, on a faulted core too. -/
theorem test_load_move_loads :
    afterStep { State.reset with
        fault := some .stackUnderflow, pc := 0x300#16, schedule := [.load [0x12#8, 0x34#8]] } (fun t =>
      t.fault == none && t.pc == 0x200#16 && t.schedule == [] && Memory.read t.mem 0x201 == 0x34#8) = true := by decide

/-- R204: a load clears the latch and drops a wait. -/
theorem test_load_clears_fault :
    (State.load { State.reset with fault := some .stackUnderflow, wait := some 3, pc := 0x300#16 } []).fault = none ∧
    (State.load { State.reset with fault := some .stackUnderflow, wait := some 3, pc := 0x300#16 } []).pc = 0x200#16 := by decide

/-- R102: under `batch_boundary` a key move inside a batch waits. -/
theorem test_batch_boundary_waits :
    afterStep { State.reset with
        schedule := [.keyDown 7], batch := some 3, params := { Params.default with keyDelivery := .batchBoundary } } (fun t =>
      !t.keys[7] && t.schedule == [.keyDown 7] && t.batch == some 4) = true := by decide

/-- R95: a `Tick` of the environment starts a batch; nothing executes yet. -/
theorem test_tick_starts_batch :
    step { State.reset with schedule := [.tick] } = .next { State.reset with batch := some 0 } := rfl

/-- R95, R211: with no `Tick` the core does not advance. -/
theorem test_no_tick_no_step :
    step State.reset = .next State.reset := rfl

/-- R38, R208: a `Tick` due inside a `Tick` waits; the slot runs. -/
theorem test_tick_in_tick_waits :
    afterStep { State.reset with schedule := [.tick], batch := some 9 } (fun t =>
      t.pc == 0x202#16 && t.schedule == [.tick] && t.batch == some 10) = true := by decide

/-- R102, the variant of P4: a slot that runs before scheduled key moves. -/
theorem test_core_move_runs_slot :
    afterStep { State.reset with schedule := [.core, .keyDown 7, .keyUp 7], batch := some 4 } (fun t =>
      t.pc == 0x202#16 && t.schedule == [.keyDown 7, .keyUp 7] && t.batch == some 5) = true := by decide

/-- T116: a `Tick` after a fault changes nothing. -/
theorem test_tick_of_faulted_core :
    step { State.reset with fault := some .stackUnderflow, schedule := [.tick] } =
      .next { State.reset with fault := some .stackUnderflow } := rfl

/-! ### Witnesses: each statement with hypotheses has states and operands that meet them -/

/-- The hypotheses of `Obligations.DecodeInvertsEncode` are met. -/
theorem test_witness_DecodeInvertsEncode :
    Instr.wellFormed (.drw 0x1 0x2 0x5#4) = true := rfl

/-- The hypotheses of `Obligations.EncodeInvertsDecode` are met. -/
theorem test_witness_EncodeInvertsDecode :
    decodeWord 0x1ABC#16 = some (.jp 0xABC#12) := rfl

/-- The hypotheses of `Obligations.DecodeFollowsMatchAndMask` are met. -/
theorem test_witness_DecodeFollowsMatchAndMask :
    Instr.row (.jp 0x000#12) ∈ opcodeRows := by decide

/-- Both ends of the range of `Obligations.InRangeAccessSucceeds`. -/
theorem test_witness_InRangeAccessSucceeds :
    Memory.wf State.reset.mem = true ∧ 0 ≤ 4095 ∧ 4095 ≤ 4095 := by decide

/-- Both branches of `Obligations.OutOfRangeAccessFaults`: bases 4095 and 4096. -/
theorem test_witness_OutOfRangeAccessFaults :
    (4096 < 4095 + 2 ∧ 0 < 2 ∧ [0x01#8, 0x02#8].length = 2) ∧
    4096 < 4096 + 1 ∧ 0 < 1 ∧ [0x01#8].length = 1 := by decide

/-- The hypotheses of `Obligations.MemoryFormIsCanonical` are met. -/
theorem test_witness_MemoryFormIsCanonical :
    Memory.wf (Memory.write [] 0x300 0x01#8) = true ∧ 4095 < 4096 ∧
    ∀ a, Memory.read (Memory.write [] 0x300 0x01#8) a =
      Memory.read (Memory.write (Memory.write [] 0x300 0x02#8) 0x300 0x01#8) a := ⟨by decide, by decide, fun _ => rfl⟩

/-- The three ranges of `Obligations.FetchIsBigEndian` at their boundaries. -/
theorem test_witness_FetchIsBigEndian :
    (0xFFE#16 : Word).toNat ≤ 0xFFE ∧ (0xFFF#16 : Word).toNat = 0xFFF ∧ 0xFFF < (0x1000#16 : Word).toNat := by decide

/-- The hypotheses of `Obligations.StepRunsDecodedInstruction` are met. -/
theorem test_witness_StepRunsDecodedInstruction :
    (State.reset.withFetchWord 16 0x6A3C).AtSlot 0 [] ∧ (State.reset.withFetchWord 16 0x6A3C).wait = none ∧
    (State.reset.withFetchWord 16 0x6A3C).pc.toNat ≤ 0xFFE ∧
    Instr.wellFormed (.ldImm 0xA 0x3C#8) = true ∧
    decode (State.reset.withFetchWord 16 0x6A3C).fetchBytes = .ok (.ldImm 0xA 0x3C#8, []) := ⟨⟨.inl ⟨rfl, rfl⟩, rfl, rfl, by decide⟩, rfl, by decide, rfl, by decide⟩

/-- The last slot of a `Tick` while the next `Tick` waits. -/
theorem test_witness_StepRunsDecodedInstruction_tick_waits :
    ∃ s : State, s.AtSlot 9 [.tick] ∧ s.wait = none ∧ s.pc.toNat ≤ 0xFFE ∧
    decode s.fetchBytes = .ok (.ldImm 0xA 0x3C#8, []) := ⟨inTick 9 { (State.reset.withFetchWord 16 0x6A3C) with schedule := [.tick] },
    ⟨.inr (.inr ⟨.tick, [], rfl, ⟨by decide, .inl rfl⟩, rfl⟩), rfl, rfl, by decide⟩, rfl, by decide, by decide⟩

/-- A slot while a key move waits under `batch_boundary`. -/
theorem test_witness_StepRunsDecodedInstruction_key_waits :
    ∃ s : State, s.AtSlot 0 [.keyDown 7] ∧ s.wait = none ∧ s.pc.toNat ≤ 0xFFE ∧
    decode s.fetchBytes = .ok (.ldImm 0xA 0x3C#8, []) := ⟨{ (State.reset.withFetchWord 16 0x6A3C) with
      schedule := [.keyDown 7], params := { Params.default with keyDelivery := .batchBoundary } },
    ⟨.inr (.inr ⟨.keyDown 7, [], rfl, ⟨by decide, .inr ⟨by decide, rfl⟩⟩, rfl⟩), rfl, rfl, by decide⟩,
    rfl, by decide, by decide⟩

/-- A slot that the schedule names, with key moves behind it. -/
theorem test_witness_StepRunsDecodedInstruction_core_move :
    ∃ s : State, s.AtSlot 5 [.keyDown 7, .keyUp 7] ∧ s.wait = none ∧ s.pc.toNat ≤ 0xFFE ∧
    decode s.fetchBytes = .ok (.ldImm 0xA 0x3C#8, []) := ⟨inTick 5 { (State.reset.withFetchWord 16 0x6A3C) with schedule := [.core, .keyDown 7, .keyUp 7] },
    ⟨.inr (.inl rfl), rfl, rfl, by decide⟩, rfl, by decide, by decide⟩

/-- The highest address an instruction runs from. -/
theorem test_witness_StepRunsDecodedInstruction_last_address :
    (State.withFetchWord { State.reset with pc := 0xFFE#16 } 16 0x1200).pc.toNat = 0xFFE ∧
    decode (State.withFetchWord { State.reset with pc := 0xFFE#16 } 16 0x1200).fetchBytes = .ok (.jp 0x200#12, []) := by decide

/-- The hypotheses of `Obligations.UnrecognisedWordOnlyAdvances` are met. -/
theorem test_witness_UnrecognisedWordOnlyAdvances :
    (inTick 0 State.reset).AtSlot 0 [] ∧ State.reset.wait = none ∧ State.reset.pc.toNat ≤ 0xFFE ∧
    decode State.reset.fetchBytes = .error (.unrecognised 0x0000#16) := ⟨⟨.inl ⟨rfl, rfl⟩, rfl, rfl, by decide⟩, rfl, by decide, by decide⟩

/-- The hypotheses of `Obligations.FetchFaultLeavesPc` are met. -/
theorem test_witness_FetchFaultLeavesPc :
    (inTick 9 { State.reset with pc := 0xFFF#16, schedule := [.tick] }).AtSlot 9 [.tick] ∧ State.reset.wait = none ∧
    0xFFF ≤ (0xFFF#16 : Word).toNat := ⟨⟨.inr (.inr ⟨.tick, [], rfl, ⟨by decide, .inl rfl⟩, rfl⟩), rfl, rfl, by decide⟩, rfl, by decide⟩

/-- Both clauses of `Obligations.RetPopsIntoPc`. -/
theorem test_witness_RetPopsIntoPc :
    ({ State.reset with stack := [0x206#16] } : State).stack = 0x206#16 :: [] ∧ State.reset.stack = [] := ⟨rfl, rfl⟩

/-- Both clauses of `Obligations.CallPushesReturnAddress`: one entry of room, and none. -/
theorem test_witness_CallPushesReturnAddress :
    State.reset.params.stackDepth ≠ some State.reset.stack.length ∧
    (withDepth 2 [0x202#16]).params.stackDepth ≠ some (withDepth 2 [0x202#16]).stack.length ∧
    (withDepth 2 [0x202#16, 0x202#16]).params.stackDepth = some (withDepth 2 [0x202#16, 0x202#16]).stack.length := by decide

/-- The hypotheses of `Obligations.CallThenRetReturns` are met. -/
theorem test_witness_CallThenRetReturns :
    State.reset.fault = none ∧ State.reset.params.stackDepth ≠ some State.reset.stack.length := by decide

/-- The hypotheses of `Obligations.PcAfterInstruction` are met. -/
theorem test_witness_PcAfterInstruction :
    ∃ t, State.reset.fault = none ∧ exec (.jp 0x300#12) State.reset = .next t ∧ t.fault = none := ⟨_, rfl, rfl, rfl⟩

/-- The hypotheses of `Obligations.FinishedStaysFinished` are met. -/
theorem test_witness_FinishedStaysFinished :
    (State.reset.withFetchWord 16 0x1200).Finished ∧ (State.reset.withFetchWord 16 0x1200).AtSlot 0 [] := ⟨⟨rfl, rfl, 0x200#12, by decide, by decide⟩, .inl ⟨rfl, rfl⟩, rfl, rfl, by decide⟩

/-- Both orders of `Obligations.SubtractSetsGreaterFlag`. -/
theorem test_witness_SubtractSetsGreaterFlag :
    Params.default.vfWriteOrder = .asListed ∧
    ({ Params.default with vfWriteOrder := .flagLast } : Params).vfWriteOrder = .flagLast := ⟨rfl, rfl⟩

/-- Both orders of `Obligations.ShiftSetsBitShiftedOut`. -/
theorem test_witness_ShiftSetsBitShiftedOut :
    State.reset.params.vfWriteOrder = .asListed ∧
    ({ State.reset with
      params := { Params.default with vfWriteOrder := .flagLast } } : State).params.vfWriteOrder = .flagLast := ⟨rfl, rfl⟩

/-- Both clauses of `Obligations.BcdStoresDigits` at their boundary. -/
theorem test_witness_BcdStoresDigits :
    Memory.wf State.reset.mem = true ∧ (0xFFD#16 : Word).toNat + 2 ≤ 4095 ∧ 4095 < (0xFFE#16 : Word).toNat + 2 := by decide

/-- Both clauses of `Obligations.StoreRegistersWritesSpan` at their boundary. -/
theorem test_witness_StoreRegistersWritesSpan :
    Memory.wf State.reset.mem = true ∧ (0xFF0#16 : Word).toNat + (15 : Reg).val ≤ 4095 ∧
    4095 < (0xFF1#16 : Word).toNat + (15 : Reg).val := by decide

/-- Both clauses of `Obligations.LoadRegistersReadsSpan` at their boundary. -/
theorem test_witness_LoadRegistersReadsSpan :
    (0xFFF#16 : Word).toNat + (0 : Reg).val ≤ 4095 ∧ 4095 < (0x1000#16 : Word).toNat + (0 : Reg).val := by decide

/-- The hypotheses of `Obligations.StoreIsSeenByFetch` are met. -/
theorem test_witness_StoreIsSeenByFetch :
    ∃ t, Memory.wf State.reset.mem = true ∧ (0x208#16 : Word).toNat + (1 : Reg).val ≤ 4095 ∧ (0 : Reg) < 1 ∧
    (0x208#16 : Word).toNat = (0x208#16 : Word).toNat + (0 : Reg).val ∧
    exec (.stRegs 1) { State.reset with idx := 0x208#16 } = .next t := ⟨_, rfl, by decide, by decide, rfl, rfl⟩

/-- Both clauses of `Obligations.DrawCompletesOrFaults` at their boundary, and the sprite of no rows. -/
theorem test_witness_DrawCompletesOrFaults :
    (0 : BitVec 4) = 0 ∧ (0xFFB#16 : Word).toNat + (5#4).toNat ≤ 4096 ∧ (5#4 : BitVec 4) ≠ 0 ∧
    4096 < (0xFFC#16 : Word).toNat + (5#4).toNat := by decide

/-- The hypotheses of `Obligations.DrawTogglesSpritePixels` are met. -/
theorem test_witness_DrawTogglesSpritePixels :
    (State.reset.params.drwVfOperand = .sampled ∧ (0x02D#16 : Word).toNat + (5#4).toNat ≤ 4096) ∧
    (1 : Reg) ≠ 15 ∧ (2 : Reg) ≠ 15 ∧ (0#4 : BitVec 4) = 0 := by decide

/-- The first clause of `Obligations.DrawLiveRereadsFlag`: 15 rows up to the last byte. -/
theorem test_witness_DrawLiveRereadsFlag :
    ∃ s : State, s.params.drwVfOperand = .live ∧ s.idx.toNat + (15#4).toNat ≤ 4096 := ⟨{ State.reset with idx := 0xFF1#16, params := { Params.default with drwVfOperand := .live } }, rfl, by decide⟩

/-- And its second: the row 0xC0 in the last byte of memory. -/
theorem test_witness_DrawLiveRereadsFlag_pair :
    ∃ s : State, s.params.drwVfOperand = .live ∧ (0 : Reg) ≠ 15 ∧ s.idx.toNat ≤ 4095 ∧
    Memory.read s.mem s.idx.toNat = 0xC0#8 := ⟨{ withBytes State.reset 0xFFF [0xC0#8] with
      idx := 0xFFF#16, params := { Params.default with drwVfOperand := .live } }, rfl, by decide, by decide, by decide⟩

/-- The hypotheses of `Obligations.DrawTwiceRestores` are met. -/
theorem test_witness_DrawTwiceRestores :
    ∃ t u, (1 : Reg) ≠ 15 ∧ (2 : Reg) ≠ 15 ∧ State.reset.idx.toNat + (5#4).toNat ≤ 4096 ∧
    exec (.drw 1 2 5#4) State.reset = .next t ∧ exec (.drw 1 2 5#4) t = .next u := ⟨_, _, by decide, by decide, by decide, rfl, rfl⟩

/-- The hypotheses of `Obligations.KeyWaitLoadsReleasedKey` are met. -/
theorem test_witness_KeyWaitLoadsReleasedKey :
    State.reset.fault = none := rfl

/-- The hypotheses of `Obligations.BatchEndDecaysTimers` are met. -/
theorem test_witness_BatchEndDecaysTimers :
    (inTick 10 State.reset).AtBatchEnd [] := ⟨.inl ⟨rfl, rfl⟩, rfl, 10, rfl, by decide⟩

/-- The end of a batch while the next `Tick` waits. -/
theorem test_witness_BatchEndDecaysTimers_tick_waits :
    (inTick 10 { State.reset with schedule := [.tick] }).AtBatchEnd [.tick] := ⟨.inr (.inr ⟨.tick, [], rfl, ⟨by decide, .inl rfl⟩, rfl⟩), rfl, 10, rfl, by decide⟩

/-- The hypotheses of `Obligations.WaitingSlotDoesNothing` are met. -/
theorem test_witness_WaitingSlotDoesNothing :
    (inTick 9 { State.reset with wait := some 3, schedule := [.core, .keyUp 7] }).AtSlot 9 [.keyUp 7] := ⟨.inr (.inl rfl), rfl, rfl, by decide⟩

/-- The hypotheses of `Obligations.OnlyKeyUpOrLoadEndsWait` are met. -/
theorem test_witness_OnlyKeyUpOrLoadEndsWait :
    ∃ t, step { (State.keyDown State.reset 7) with wait := some 1, schedule := [.keyUp 7] } = .next t ∧ t.wait ≠ some 1 := ⟨_, rfl, by decide⟩

/-- The other way a wait ends in `Obligations.OnlyKeyUpOrLoadEndsWait`. -/
theorem test_witness_OnlyKeyUpOrLoadEndsWait_load :
    ∃ t, step { State.reset with wait := some 1, schedule := [.load []] } = .next t ∧ t.wait ≠ some 1 := ⟨_, rfl, by decide⟩

/-- The hypotheses of `Obligations.FaultedCoreIsHalted` are met. -/
theorem test_witness_FaultedCoreIsHalted :
    ∃ s : State, s.fault = some .stackUnderflow ∧ s.CoreIsNext [] := ⟨{ State.reset with fault := some .stackUnderflow }, rfl, .inl ⟨rfl, rfl⟩⟩

/-- And a `Tick` that comes after the fault. -/
theorem test_witness_FaultedCoreIsHalted_tick :
    ∃ s : State, s.fault = some .stackUnderflow ∧ s.schedule = .tick :: [] ∧ s.batch = none := ⟨{ State.reset with fault := some .stackUnderflow, schedule := [.tick] }, rfl, rfl, rfl⟩

/-- The hypotheses of `Obligations.FaultsArePrecise` are met, with a `Tick` that waits. -/
theorem test_witness_FaultsArePrecise :
    ∃ s t : State, s.fault = none ∧ s.schedule = [.tick] ∧ step s = .next t ∧ t.fault ≠ none := ⟨{ (State.reset.withFetchWord 16 0x00EE) with schedule := [.tick] }, _, rfl, rfl, rfl, by decide⟩

/-- The clause of `Obligations.ScheduledMovesLand` that ends a wait: the highest key, at the last boundary of a batch. -/
theorem test_witness_ScheduledMovesLand :
    ∃ s : State, (s.params.keyDelivery = .stepBoundary ∨ s.batch = none) ∧ s.schedule = .keyUp 15 :: [] ∧
    s.keys[(15 : Key).val] = true ∧ s.fault = none ∧ s.wait = some 3 := ⟨inTick 10 { (State.keyDown State.reset 15) with wait := some 3, schedule := [.keyUp 15] },
    .inl rfl, rfl, by decide, rfl, rfl⟩

/-- A key going up on a faulted core, which waits for none. -/
theorem test_witness_ScheduledMovesLand_faulted :
    ∃ s : State, (s.params.keyDelivery = .stepBoundary ∨ s.batch = none) ∧ s.schedule = .keyUp 0 :: [] ∧
    s.keys[(0 : Key).val] = true ∧ s.fault ≠ none := ⟨{ (State.keyDown State.reset 0) with fault := some .stackUnderflow, schedule := [.keyUp 0] },
    .inr rfl, rfl, by decide, by decide⟩

/-- A key going up that is not down. -/
theorem test_witness_ScheduledMovesLand_released :
    ∃ s : State, (s.params.keyDelivery = .stepBoundary ∨ s.batch = none) ∧ s.schedule = .keyUp 7 :: [] ∧
    s.keys[(7 : Key).val] = false := ⟨{ State.reset with schedule := [.keyUp 7] }, .inr rfl, rfl, by decide⟩

/-- A load between two `Tick`s, and a key going down inside one. -/
theorem test_witness_ScheduledMovesLand_load :
    ∃ s u : State, s.batch = none ∧ s.schedule = .load [0x12#8] :: [] ∧
    u.params.keyDelivery = .stepBoundary ∧ u.schedule = .keyDown 0 :: [] := ⟨{ State.reset with schedule := [.load [0x12#8]] }, inTick 3 { State.reset with schedule := [.keyDown 0] },
    rfl, rfl, rfl, rfl⟩

/-- A step of the core that the schedule names, and an empty schedule, with no `Tick` in flight. -/
theorem test_witness_ScheduledMovesLand_core :
    ∃ s u : State, s.schedule = .core :: [] ∧ s.batch = none ∧ u.schedule = [] ∧ u.batch = none := ⟨{ State.reset with schedule := [.core] }, State.reset, rfl, rfl, rfl, rfl⟩

/-- A `Tick`. -/
theorem test_witness_ScheduledMovesLand_tick :
    ∃ s : State, s.schedule = .tick :: [] ∧ s.batch = none ∧ s.fault = none := ⟨{ State.reset with schedule := [.tick] }, rfl, rfl, rfl⟩

/-- A `Tick` due inside a `Tick`, before its first slot. -/
theorem test_witness_TickInFlightDefersMoves :
    ∃ s : State, s.schedule = .tick :: [] ∧ s.batch ≠ none := ⟨inTick 0 { State.reset with schedule := [.tick] }, rfl, by decide⟩

/-- And a key move. -/
theorem test_witness_TickInFlightDefersMoves_batch_boundary :
    ∃ s : State, s.schedule = .keyDown 7 :: [] ∧ s.batch ≠ none ∧ Move.keyDown 7 ≠ .core ∧
    s.params.keyDelivery = .batchBoundary := ⟨{ State.reset with
      schedule := [.keyDown 7], batch := some 3, params := { Params.default with keyDelivery := .batchBoundary } },
    rfl, by decide, by decide, rfl⟩

/-- Both clauses of `Obligations.LoadChecksSize` at their boundary. -/
theorem test_witness_LoadChecksSize :
    3584 < (List.replicate 3585 0xAB#8).length ∧ (List.replicate 3584 0xAB#8).length ≤ 3584 := by rw [List.length_replicate, List.length_replicate]; decide

/-- The hypotheses of `Obligations.LoadPlacesImage` are met. -/
theorem test_witness_LoadPlacesImage :
    [0x12#8, 0x34#8].length ≤ 3584 := by decide

/-- A load of `Obligations.LoadResetsCore`. -/
theorem test_witness_LoadResetsCore :
    ∃ t, [0x12#8, 0x34#8].length ≤ 3584 ∧ t = State.load { State.reset with wait := some 3 } [0x12#8, 0x34#8] := ⟨_, by decide, rfl⟩

/-- And reset itself. -/
theorem test_witness_LoadResetsCore_reset :
    ∃ t, ([] : List Byte).length ≤ 3584 ∧ ([] : List Byte) = [] ∧ t = State.reset := ⟨_, by decide, rfl, rfl⟩

/-- The hypotheses of `Obligations.RegistersWrittenOnlyAsNamed` are met. -/
theorem test_witness_RegistersWrittenOnlyAsNamed :
    ∃ t, exec (.ldImm 0x1 0x3C#8) State.reset = .next t ∧ mayWriteReg (.ldImm 0x1 0x3C#8) 0x2 = false := ⟨_, rfl, rfl⟩

/-- The hypotheses of `Obligations.SpecialStateWrittenOnlyAsNamed` are met. -/
theorem test_witness_SpecialStateWrittenOnlyAsNamed :
    ∃ t, exec (.ldI 0x300#12) State.reset = .next t ∧ t.idx ≠ State.reset.idx := ⟨_, rfl, by decide⟩

/-- The hypothesis of `Obligations.SoundTimerIsNeverRead` is met, in its second clause. -/
theorem test_witness_SoundTimerIsNeverRead :
    ∃ t, exec (.ldSTVx 0x0) State.reset = .next t := ⟨_, rfl⟩

/-- And in its first clause. -/
theorem test_witness_SoundTimerIsNeverRead_other :
    ∃ t, exec (.cls) State.reset = .next t ∧ ∀ x, Instr.cls ≠ .ldSTVx x := ⟨_, rfl, fun _ h => nomatch h⟩

/-- The hypotheses of `Obligations.ParametersNeverChange` are met. -/
theorem test_witness_ParametersNeverChange :
    ∃ t, step (inTick 0 State.reset) = .next t := ⟨_, rfl⟩

/-- The hypotheses of `Obligations.InvariantIsKept` are met. -/
theorem test_witness_InvariantIsKept :
    ∃ t, (inTick 0 State.reset).Inv ∧ step (inTick 0 State.reset) = .next t := ⟨_, ⟨rfl, by decide, by simp [inTick, State.reset], by simp [inTick, State.reset, Params.default],
      by simp [inTick], .inl rfl, .inl rfl⟩, rfl⟩

/-- The hypotheses of `Obligations.TickIsRunOfSteps` are met. -/
theorem test_witness_TickIsRunOfSteps :
    ∃ s : State, s.schedule = [.tick] ∧ s.batch = none := ⟨{ State.reset with schedule := [.tick] }, rfl, rfl⟩

/-- And with a second `Tick` and a load scheduled behind it. -/
theorem test_witness_TickIsRunOfSteps_more :
    ∃ s t : State, s.schedule = .tick :: .tick :: [.load []] ∧ s.batch = none ∧
    tick { s with schedule := .tick :: [.load []] } = .next t ∧ t.fault = none := ⟨{ State.reset with
      schedule := [.tick, .tick, .load []], params := { Params.default with stepsPerTick := 1 } }, _,
    rfl, rfl, rfl, by decide⟩

end Sys2Proof.Tests
end

section
/-! SUPPORT. Totality of the instruction step, the frame of the parameters, and what a step does with each scheduled
move (spec/00_scope.md R5, R6, R11). -/

namespace Sys2Proof.Machine

/-! ### The latch after an instruction step (R11, R180, R187) -/

/-- The fault of a span based at a 16-bit address records an address from 4096 to 65535 (R180, R182). -/
theorem outOfRange_word (w : Word) :
    ∃ a, 4096 ≤ a ∧ a ≤ 65535 ∧ outOfRange w.toNat = .memoryOutOfRange a := by
  refine ⟨max w.toNat memSize, ?_, ?_, rfl⟩ <;> unfold memSize <;> omega

/-- Settles O47: the step completes with the latch as it was, or raises one cause, and the address a fault of the fetch
or of an access at `I` records is that of a 16-bit base. -/
theorem instructionStepIsTotal : Obligations.InstructionStepIsTotal := by
  intro s
  rcases instructionStep_cases s with ⟨t, ht, hf⟩ | ⟨c, ht, hc⟩
  · exact ⟨t, ht, .inl hf⟩
  · refine ⟨_, ht, .inr ?_⟩
    rw [State.raise_fault]
    rcases hc with rfl | rfl | rfl | rfl
    · exact .inl rfl
    · obtain ⟨a, hlo, hhi, ha⟩ := outOfRange_word s.idx
      exact .inr (.inl ⟨a, hlo, hhi, congrArg some ha⟩)
    · obtain ⟨a, hlo, hhi, ha⟩ := outOfRange_word s.pc
      exact .inr (.inl ⟨a, hlo, hhi, congrArg some ha⟩)
    · exact .inr (.inr rfl)

/-! ### The parameters (R5) -/

@[simp] theorem State.closeSlot_params (s : State) : s.closeSlot.params = s.params := by
  rw [State.closeSlot_eq]
  split <;> rfl

@[simp] theorem State.closeBatch_params (s : State) : s.closeBatch.params = s.params := by
  rw [State.closeBatch, State.endBatch_eq]

@[simp] theorem State.startTick_params (s : State) : s.startTick.params = s.params := by
  rw [State.startTick_eq]
  split <;> rfl

@[simp] theorem State.keyRelease_params (s : State) (k : Key) : (s.keyRelease k).params = s.params := by
  rcases s.keyRelease_cases k with ⟨_, r, _, h⟩ | h
  · rw [h, State.setReg_params]
  · rw [h]

@[simp] theorem State.load_params (s : State) (image : List Byte) : (s.load image).params = s.params := by
  rcases s.load_cases image with ⟨_, h⟩ | ⟨_, h⟩
  · rw [h, State.loaded]
  · rw [h]

/-- A key going up keeps the parameters. -/
theorem State.keyUp_params {s t : State} {k : Key} (h : s.keyUp k = .next t) : t.params = s.params := by
  obtain ⟨_, rfl⟩ := State.keyUp_next h
  exact State.keyRelease_params _ k

/-- A step of the core keeps the parameters. -/
theorem coreStep_params {s t : State} (h : coreStep s = .next t) : t.params = s.params := by
  rcases coreStep_cases h with ⟨_, rfl⟩ | ⟨_, _, _, _, u, hu, rfl⟩ | ⟨_, _, _, _, rfl⟩
  · rfl
  · obtain ⟨_, _, _, hparams, _, _⟩ := stepSlot_untouched hu
    exact u.closeSlot_params.trans hparams
  · exact s.closeBatch_params

/-- Settles O56, by the moves a step can be: the core's, `Tick`, a key going down, a key going up, a load. -/
theorem parametersNeverChange : Obligations.ParametersNeverChange := by
  intro s t h
  rcases step_cases h with ⟨rest, _, hcore⟩ | ⟨rest, _, _, rfl⟩ | ⟨k, rest, _, rfl⟩ | ⟨k, rest, _, hup⟩ |
    ⟨image, rest, _, rfl⟩
  · exact (coreStep_params hcore :)
  · exact State.startTick_params _
  · exact State.keyDown_params _ k
  · exact (State.keyUp_params hup :)
  · exact State.load_params _ image

/-! ### The moves of the environment (R6, R36, R95, R101, R102, R200) -/

/-- A key release on a core that waits and has not faulted loads the key's code and ends the wait (R101). -/
theorem State.keyRelease_of_waiting {s : State} {r : Reg} (hf : s.fault = none) (hw : s.wait = some r) (k : Key) :
    s.keyRelease k = { s.setReg r (keyCode k) with wait := none } := by
  simp [State.keyRelease, hf, hw]

/-- A key release does nothing when no wait is pending or a fault is latched (R101, R104). -/
theorem State.keyRelease_of_not_waiting {s : State} (h : s.wait = none ∨ s.fault ≠ none) (k : Key) :
    s.keyRelease k = s := by
  rcases s.keyRelease_cases k with ⟨hf, r, hw, _⟩ | hsame
  · rcases h with hn | hn
    · rw [hn] at hw; cases hw
    · exact absurd hf hn
  · exact hsame

/-- A key that is down goes up, and its release is delivered (R36). -/
theorem State.keyUp_of_down {s : State} {k : Key} (h : s.keys[k.val] = true) :
    s.keyUp k = .next (State.keyRelease { s with keys := s.keys.set k.val false } k) := by
  simp only [State.keyUp, h, if_true]

/-- A key that is up cannot go up: the model stops (R36, log 6). -/
theorem State.keyUp_of_up {s : State} {k : Key} (h : s.keys[k.val] = false) :
    s.keyUp k = .fault (.keyUpWithoutKeyDown k) := by
  simp [State.keyUp, h]

/-- A `Tick` that is due between two `Tick`s is taken (R38). -/
theorem step_of_tick {s : State} {rest : List Move} (h : s.schedule = .tick :: rest) (hb : s.batch = none) :
    step s = .next (State.startTick { s with schedule := rest }) :=
  step_of_admitted h (decide_eq_true hb)

/-- `KeyUp` of a key that is down, where it may land: the level falls and the release is delivered (R36, R102). -/
theorem step_of_keyUp_down {s : State} {k : Key} {rest : List Move} (h : s.schedule = .keyUp k :: rest)
    (ha : s.admitsEvents = true) (hk : s.keys[k.val] = true) :
    step s = .next (State.keyRelease { s with keys := s.keys.set k.val false, schedule := rest } k) :=
  (step_of_admitted h ha).trans (State.keyUp_of_down (s := { s with schedule := rest }) hk)

/-- `KeyUp` of a key that is up, where it may land, stops the model (R36, log 6). -/
theorem step_of_keyUp_up {s : State} {k : Key} {rest : List Move} (h : s.schedule = .keyUp k :: rest)
    (ha : s.admitsEvents = true) (hk : s.keys[k.val] = false) : step s = .fault (.keyUpWithoutKeyDown k) :=
  (step_of_admitted h ha).trans (State.keyUp_of_up (s := { s with schedule := rest }) hk)

/-- Settles O48, clause by clause: the schedule gives the move, and the law of that move its effect. -/
theorem scheduledMovesLand : Obligations.ScheduledMovesLand := by
  intro s k image rest
  refine ⟨fun hs hb hf => ?tick, fun hs hb => ?idle, fun hs hb => ?coreIdle, fun hs => step_of_admitted hs rfl,
    fun hk => ?events⟩
  case tick => rw [step_of_tick hs hb, State.startTick_eq, if_pos hf]
  case idle => rw [step_of_empty hs, coreStep_of_idle hb]
  case coreIdle => exact (step_of_admitted hs rfl).trans (coreStep_of_idle hb)
  case events =>
    have ha : s.admitsEvents = true := s.admitsEvents_iff.mpr hk
    refine ⟨fun hs => step_of_admitted hs ha, fun hs hdown hw => ?noWait, fun hs hdown hf r hr => ?wait,
      fun hs hup => step_of_keyUp_up hs ha hup, fun hs => step_of_admitted hs ha⟩
    case noWait =>
      rw [step_of_keyUp_down hs ha hdown, State.keyRelease_of_not_waiting]
      exact hw
    case wait =>
      rw [step_of_keyUp_down hs ha hdown, State.keyRelease_of_waiting (r := r)]
      · rfl
      · exact hf
      · exact hr

end Sys2Proof.Machine
end

section
/-! SUPPORT. What an instruction can do, said once: the fields it writes and what it writes there
(spec/10_state.md R22, R24, R41). -/

namespace Sys2Proof.Machine

/-! ### The program counter of the skips (R24) -/

/-- A skip instruction moves nothing but the program counter, to the target of R24. -/
theorem exec_of_skipCondition {i : Instr} {s : State} (h : skipCondition i s ≠ none) :
    exec i s = .next { s with pc := pcAfter i s } := by
  cases i with
  | seImm x kk | sneImm x kk | seReg x y | sneReg x y =>
    simp [exec, execSeImm, execSneImm, execSeReg, execSneReg, State.complete_skipIf, pcAfter, skipCondition,
      -State.complete_eq]
  | skp x | sknp x =>
    simp only [exec, execSkp, execSknp, State.complete_skipIf, pcAfter, skipCondition, Option.some_inj]
    rfl
  | _ => exact absurd rfl h

/-! ### Register files after the writes of an instruction -/

/-- A register file after one write, at any other register. -/
theorem getElem_set_of_ne (v : Vector Byte 16) {x r : Reg} (h : r ≠ x) (b : Byte) :
    (v.set x.val b)[r.val] = v[r.val] :=
  Vector.getElem_set_ne _ _ fun hx => h (Fin.ext hx.symm)

/-- The bytes of a register load reach V0 to Vx and no further (R155). -/
theorem State.loadRegs_reg_of_gt (s : State) {x r : Reg} {bytes : List Byte} (hlen : bytes.length = x.val + 1)
    (h : ¬r.val ≤ x.val) : (s.loadRegs bytes).reg r = s.reg r := by
  rw [State.loadRegs_reg, List.getD_eq_default _ _ (by omega)]

/-! ### The effect of an instruction -/

/-- The fault an instruction can take, of the one kind it has (R180 to R183, R187). -/
def MayRaise (i : Instr) (c : Cause) : Prop :=
  (i = .ret ∧ c = .stackUnderflow) ∨
    ((∃ nnn, i = .call nnn) ∧ ∃ v, c = .stackOverflow v) ∨
    (((∃ x, i = .ldB x ∨ i = .stRegs x ∨ i = .ldRegs x) ∨ ∃ x y n, i = .drw x y n) ∧
      ∃ a, c = .memoryOutOfRange a)

/-- A register file in which only the registers the rules name for an instruction may have changed (R22, R41). -/
def KeepsOtherRegs (i : Instr) (s : State) (v : Vector Byte 16) : Prop :=
  ∀ r : Reg, mayWriteReg i r = false → v[r.val] = s.v[r.val]

/-- The states an instruction can answer: the state before with a fault of its kind latched, or that state with the
program counter of R24 and new contents in the one group of fields the instruction writes. -/
inductive Effect (s : State) : Instr → State → Prop
  | raise {i : Instr} {c : Cause} (h : MayRaise i c) : Effect s i (s.raise c)
  | flow {i : Instr} : Effect s i { s with pc := pcAfter i s }
  | registers {i : Instr} {v : Vector Byte 16} (h : KeepsOtherRegs i s v) :
      Effect s i { s with pc := pcAfter i s, v := v }
  | random {x : Reg} {kk : Byte} {v : Vector Byte 16} (h : KeepsOtherRegs (.rnd x kk) s v) (n : Nat) :
      Effect s (.rnd x kk) { s with pc := pcAfter (.rnd x kk) s, v := v, draws := n }
  | index {i : Instr} (h : (∃ nnn, i = .ldI nnn) ∨ ∃ x, i = .addI x ∨ i = .ldF x) (w : Word) :
      Effect s i { s with pc := pcAfter i s, idx := w }
  | pop {w : Word} {rest : List Word} (h : s.stack = w :: rest) :
      Effect s .ret { s with pc := pcAfter .ret s, stack := rest }
  | push (nnn : Addr12) (h : s.params.stackDepth ≠ some s.stack.length) :
      Effect s (.call nnn) { s with pc := pcAfter (.call nnn) s, stack := (s.pc + 2#16) :: s.stack }
  | delay (x : Reg) : Effect s (.ldDTVx x) { s with pc := pcAfter (.ldDTVx x) s, dt := s.reg x }
  | sound (x : Reg) : Effect s (.ldSTVx x) { s with pc := pcAfter (.ldSTVx x) s, st := s.reg x }
  | wait (x : Reg) : Effect s (.ldVxK x) { s with pc := pcAfter (.ldVxK x) s, wait := some x }
  | memory {i : Instr} (h : ∃ x, i = .ldB x ∨ i = .stRegs x) {a : Nat} {bytes : List Byte}
      (ha : a + bytes.length ≤ memSize) :
      Effect s i { s with pc := pcAfter i s, mem := Memory.writeBytes s.mem a bytes }
  | display {i : Instr} (h : i = .cls ∨ ∃ x y n, i = .drw x y n) {v : Vector Byte 16} (hv : KeepsOtherRegs i s v)
      (fb : Frame) (requests : List Request) :
      Effect s i { s with pc := pcAfter i s, v := v, fb := fb, requests := requests }

/-- The fault of a memory instruction is of its kind. -/
theorem mayRaise_outOfRange {i : Instr}
    (h : (∃ x, i = .ldB x ∨ i = .stRegs x ∨ i = .ldRegs x) ∨ ∃ x y n, i = .drw x y n) (base : Nat) : MayRaise i (outOfRange base) :=
  .inr (.inr ⟨h, _, rfl⟩)

/-- One write, to a destination of the instruction. -/
theorem keepsOtherRegs_set {i : Instr} {s : State} {x : Reg} (h : mayWriteReg i x = true) (b : Byte) :
    KeepsOtherRegs i s (s.v.set x.val b) := by
  intro r hr
  exact getElem_set_of_ne s.v (fun hx => by rw [hx, h] at hr; cases hr) b

/-- Two writes, to destinations of the instruction. -/
theorem keepsOtherRegs_set_set {i : Instr} {s : State} {x y : Reg} (hx : mayWriteReg i x = true)
    (hy : mayWriteReg i y = true) (a b : Byte) :
    KeepsOtherRegs i s ((s.v.set x.val a).set y.val b) := by
  intro r hr
  have hry : r ≠ y := fun h => by rw [h, hy] at hr; cases hr
  exact (getElem_set_of_ne _ hry b).trans (keepsOtherRegs_set hx a r hr)

/-- The two writes of a flag-writing instruction, in either order (R143). -/
theorem effect_flagAndResult {i : Instr} {s : State} {x : Reg} (hpc : pcAfter i s = s.pc + 2#16)
    (hx : mayWriteReg i x = true) (hf : mayWriteReg i flagReg = true) (result flag : Byte) :
    Effect s i (s.advance.setFlagAndResult x result flag) := by
  unfold State.setFlagAndResult State.advance
  rw [← hpc]
  split
  · exact .registers (keepsOtherRegs_set_set hf hx flag result)
  · exact .registers (keepsOtherRegs_set_set hx hf result flag)

/-- Every instruction has one of these effects. -/
theorem exec_effect {i : Instr} {s t : State} (h : exec i s = .next t) : Effect s i t := by
  cases i with
  | ret =>
    simp only [exec, execRet_eq] at h
    split at h
    · obtain rfl := Host.Outcome.next.inj h
      exact .raise (.inl ⟨rfl, rfl⟩)
    · rename_i w rest hs
      obtain rfl := Host.Outcome.next.inj h
      have hpc : pcAfter .ret s = w := by simp [pcAfter, hs]
      exact hpc ▸ .pop hs
  | call nnn =>
    simp only [exec, execCall_eq] at h
    split at h <;> obtain rfl := Host.Outcome.next.inj h
    · exact .raise (.inr (.inl ⟨⟨nnn, rfl⟩, _, rfl⟩))
    · exact .push nnn ‹_›
  | jpV0 nnn =>
    obtain rfl := Host.Outcome.next.inj h
    have hpc : pcAfter (.jpV0 nnn) s = offsetTarget nnn (s.reg 0) := by
      simp [pcAfter, offsetTarget, absolute, byteToWord, BitVec.ofNat_add]
    change Effect s _ { s with pc := offsetTarget nnn (s.reg 0) }
    exact hpc ▸ .flow
  | seImm x kk | sneImm x kk | seReg x y | sneReg x y | skp x | sknp x =>
    rw [exec_of_skipCondition (by simp [skipCondition])] at h
    obtain rfl := Host.Outcome.next.inj h
    exact .flow
  | or x y | and x y | xor x y | addReg x y =>
    obtain rfl := Host.Outcome.next.inj h
    exact .registers (keepsOtherRegs_set_set (by simp [mayWriteReg]) (by simp [mayWriteReg]) _ _)
  | sub x y | shr x y | subn x y | shl x y =>
    obtain rfl := Host.Outcome.next.inj h
    exact effect_flagAndResult rfl (by simp [mayWriteReg]) (by simp [mayWriteReg]) _ _
  | ldImm x kk | addImm x kk | ldReg x y | ldVxDT x =>
    obtain rfl := Host.Outcome.next.inj h
    exact .registers (keepsOtherRegs_set (by simp [mayWriteReg]) _)
  | rnd x kk =>
    obtain rfl := Host.Outcome.next.inj h
    exact .random (keepsOtherRegs_set (by simp [mayWriteReg]) _) _
  | drw x y n =>
    obtain ⟨c, _, hc⟩ := State.drawSprite_eq s.advance x y (Memory.readBytes s.mem s.idx.toNat n.toNat)
    simp only [exec, execDrw_eq, hc] at h
    split at h <;> obtain rfl := Host.Outcome.next.inj h
    · exact .display (.inr ⟨x, y, n, rfl⟩) (keepsOtherRegs_set (x := flagReg) rfl c.vf) _ _
    · exact .raise (mayRaise_outOfRange (.inr ⟨x, y, n, rfl⟩) _)
  | cls =>
    obtain rfl := Host.Outcome.next.inj h
    exact .display (.inl rfl) (fun _ _ => rfl) _ _
  | ldB x =>
    simp only [exec, execLdB_eq] at h
    split at h <;> obtain rfl := Host.Outcome.next.inj h
    · exact .memory ⟨x, .inl rfl⟩ ‹_›
    · exact .raise (mayRaise_outOfRange (.inl ⟨x, .inl rfl⟩) _)
  | stRegs x =>
    simp only [exec, execStRegs_eq] at h
    split at h <;> obtain rfl := Host.Outcome.next.inj h
    · exact .memory ⟨x, .inr rfl⟩ (by rwa [State.length_regsUpTo])
    · exact .raise (mayRaise_outOfRange (.inl ⟨x, .inr (.inl rfl)⟩) _)
  | ldRegs x =>
    simp only [exec, execLdRegs_eq] at h
    split at h <;> obtain rfl := Host.Outcome.next.inj h
    · refine .registers fun r hr => ?_
      exact s.advance.loadRegs_reg_of_gt (Memory.length_readBytes _ _ _) (of_decide_eq_false hr)
    · exact .raise (mayRaise_outOfRange (.inl ⟨x, .inr (.inr rfl)⟩) _)
  | ldI nnn | addI x | ldF x =>
    obtain rfl := Host.Outcome.next.inj h
    exact .index (by simp) _
  | jp nnn =>
    obtain rfl := Host.Outcome.next.inj h
    exact .flow
  | ldDTVx x =>
    obtain rfl := Host.Outcome.next.inj h
    exact .delay x
  | ldSTVx x =>
    obtain rfl := Host.Outcome.next.inj h
    exact .sound x
  | ldVxK x =>
    obtain rfl := Host.Outcome.next.inj h
    exact .wait x

end Sys2Proof.Machine
end

section
/-! SUPPORT. What follows from the effect of an instruction: the program counter, the frame of every field, and the
fields no instruction reads (spec/10_state.md R21 to R34, R41). -/

namespace Sys2Proof.Machine

/-! ### The program counter and the general registers (R21, R22, R24) -/

/-- A completed instruction leaves the program counter the table of R24 gives. -/
theorem Effect.pc {s t : State} {i : Instr} (e : Effect s i t) (h : t.fault = none) : t.pc = pcAfter i s := by
  cases e with
  | raise _ => cases h
  | _ => rfl

/-- Settles O19: every effect but a fault moves the program counter as the table says. -/
theorem pcAfterInstruction : Obligations.PcAfterInstruction :=
  fun _ _ _ _ h ht => (exec_effect h).pc ht

/-- A register that is not named for the instruction is as before. -/
theorem Effect.reg_of_not_mayWriteReg {s t : State} {i : Instr} (e : Effect s i t) {r : Reg}
    (hr : mayWriteReg i r = false) : t.reg r = s.reg r := by
  cases e with
  | registers h | random h _ | display _ h _ _ => exact h r hr
  | _ => rfl

/-- Settles O53, by the effects that write the register file. -/
theorem registersWrittenOnlyAsNamed : Obligations.RegistersWrittenOnlyAsNamed :=
  fun _ _ _ _ h hr => (exec_effect h).reg_of_not_mayWriteReg hr

/-! ### Who writes each of the other fields (R26, R27, R30 to R32, R41, R187) -/

section
variable {s t : State} {i : Instr} (e : Effect s i t)
include e

theorem Effect.writer_of_idx (h : t.idx ≠ s.idx) : (∃ nnn, i = .ldI nnn) ∨ ∃ x, i = .addI x ∨ i = .ldF x := by
  cases e with
  | index hi _ => exact hi
  | _ => exact absurd rfl h

theorem Effect.writer_of_stack (h : t.stack ≠ s.stack) : i = .ret ∨ ∃ nnn, i = .call nnn := by
  cases e with
  | pop _ => exact .inl rfl
  | push nnn _ => exact .inr ⟨nnn, rfl⟩
  | _ => exact absurd rfl h

theorem Effect.writer_of_dt (h : t.dt ≠ s.dt) : ∃ x, i = .ldDTVx x := by
  cases e with
  | delay x => exact ⟨x, rfl⟩
  | _ => exact absurd rfl h

theorem Effect.writer_of_st (h : t.st ≠ s.st) : ∃ x, i = .ldSTVx x := by
  cases e with
  | sound x => exact ⟨x, rfl⟩
  | _ => exact absurd rfl h

theorem Effect.writer_of_wait (h : t.wait ≠ s.wait) : ∃ x, i = .ldVxK x := by
  cases e with
  | wait x => exact ⟨x, rfl⟩
  | _ => exact absurd rfl h

theorem Effect.writer_of_mem (h : t.mem ≠ s.mem) : ∃ x, i = .ldB x ∨ i = .stRegs x := by
  cases e with
  | memory hi _ => exact hi
  | _ => exact absurd rfl h

theorem Effect.writer_of_display (h : t.fb ≠ s.fb ∨ t.requests ≠ s.requests) :
    i = .cls ∨ ∃ x y n, i = .drw x y n := by
  cases e with
  | display hi _ _ _ => exact hi
  | _ => exact absurd h (by simp)

theorem Effect.writer_of_draws (h : t.draws ≠ s.draws) : ∃ x kk, i = .rnd x kk := by
  cases e with
  | random _ _ => exact ⟨_, _, rfl⟩
  | _ => exact absurd rfl h

theorem Effect.raised_of_fault (h : t.fault ≠ s.fault) : ∃ c, t.fault = some c ∧ MayRaise i c := by
  cases e with
  | raise hc => exact ⟨_, rfl, hc⟩
  | _ => exact absurd rfl h

end

/-- Settles O54, field by field from the effect of the instruction; the fields of the batch and the environment are
those of `exec_untouched`. -/
theorem specialStateWrittenOnlyAsNamed : Obligations.SpecialStateWrittenOnlyAsNamed := by
  intro i s t h
  have e := exec_effect h
  refine ⟨e.writer_of_idx, e.writer_of_stack, e.writer_of_dt, e.writer_of_st, e.writer_of_wait, e.writer_of_mem,
    e.writer_of_display, e.writer_of_draws, fun hne => ?fault, exec_untouched h⟩
  obtain ⟨c, hc, hi⟩ := e.raised_of_fault hne
  simpa [hc, MayRaise] using hi

/-! ### Fields no instruction reads (R31, R34, R176) -/

/-- Settles O55: `exec_withUnread` runs the two states alike, and only `LD ST, Vx` writes the sound timer. -/
theorem soundTimerIsNeverRead : Obligations.SoundTimerIsNeverRead := by
  intro i s t st tone visible h
  refine ⟨fun hi => ⟨?kept, ?alike⟩, fun x hx => ?loaded⟩
  case kept =>
    by_contra hne
    obtain ⟨x, hx⟩ := (exec_effect h).writer_of_st hne
    exact hi x hx
  case alike =>
    obtain ⟨u, hu, -, -, hbatch, hrun⟩ := exec_withUnread i s st tone visible s.batch
    obtain rfl := Host.Outcome.next.inj (hu.symm.trans h)
    refine hrun.trans ?_
    rw [← hbatch]
    cases i with
    | ldSTVx x => exact absurd rfl (hi x)
    | _ => rfl
  case loaded =>
    subst hx
    obtain rfl := Host.Outcome.next.inj h
    exact ⟨rfl, rfl⟩

/-! ### `CALL` (R28, R112) -/

/-- An absolute target, as the number it is (R73). -/
theorem absolute_eq (nnn : Addr12) : absolute nnn = BitVec.ofNat 16 nnn.toNat :=
  (BitVec.ofNat_toNat 16 nnn).symm

/-- Settles O15, by the two cases of the stack. -/
theorem callPushesReturnAddress : Obligations.CallPushesReturnAddress := by
  intro s nnn
  rw [← absolute_eq]
  exact ⟨by simp [decodeWord], fun hroom => execCall_of_room hroom nnn, fun hfull => execCall_of_full hfull nnn⟩

end Sys2Proof.Machine
end

section
/-! SUPPORT. The core after a load, and the invariant of every run: it holds at reset, and every step of the core and of
the environment keeps it (spec/10_state.md R25, R28, R39, R40, spec/40_execution_cycle.md R96, R100, R103). -/

namespace Sys2Proof.Machine

/-! ### The core after a load (R39, R200 to R204) -/

/-- Memory after a load of an image that fits: the image from 0x200, the reset contents elsewhere (R202, R203). -/
theorem Memory.read_ofImage {image : List Byte} (h : image.length ≤ maxProgram) (a : Nat) :
    Memory.read (Memory.ofImage image) a =
      if 0x200 ≤ a ∧ a < 0x200 + image.length then image.getD (a - 0x200) 0x00#8 else fontTable.getD a 0x00#8 :=
  Memory.read_writeBytes rfl (by unfold maxProgram at h; unfold programBase memSize; omega) a

/-- A load of an image that fits resets the core. -/
theorem State.load_of_fits {image : List Byte} (h : image.length ≤ maxProgram) (s : State) :
    s.load image = s.loaded image := by
  simp [State.load, imageFits, h]

/-- Settles O52: the load of an image that fits is the reset of the core with that image, and reset is that of the
empty image. -/
theorem loadResetsCore : Obligations.LoadResetsCore := by
  refine ⟨fun s t image hfits ht => ?_, State.load_of_fits (by decide) State.reset⟩
  have hreg (r : Reg) : State.reset.reg r = 0x00#8 := by simp [State.reg_eq, State.reset]
  rcases ht with rfl | ⟨rfl, rfl⟩
  on_goal 1 => rw [State.load_of_fits hfits]
  all_goals exact ⟨rfl, rfl, rfl, rfl, hreg, rfl, rfl, rfl, Memory.read_ofImage hfits, Frame.pixel_clear, rfl⟩

/-! ### Moves that have to wait (R38, R102, R208) -/

/-- Settles O49: a move that has to wait leaves the step to the core, which keeps the schedule. -/
theorem tickInFlightDefersMoves : Obligations.TickInFlightDefersMoves := by
  intro s m rest hs hb hm
  have hcore := step_of_deferred hs ⟨hb, hm⟩
  obtain ⟨t, ht⟩ := coreStep_next s
  exact ⟨hcore, t, hcore.trans ht, (coreStep_schedule ht).trans hs⟩

/-! ### The invariant at reset and after a load -/

/-- Settles O57: every bound holds of the values of R39, and no `Tick` is in flight. -/
theorem invariantHoldsAtReset : Obligations.InvariantHoldsAtReset where
  memory := rfl
  pcBound := by decide
  returnBound _ hw := by cases hw
  depth _ _ := Nat.zero_le _
  slots _ hb := by cases hb
  notBoth := .inl rfl
  tickOver := .inl rfl

/-- A load keeps the invariant: it resets the core, or it only records its answer. -/
theorem State.Inv.load {s : State} (hs : s.Inv) (image : List Byte) : (s.load image).Inv := by
  rcases s.load_cases image with ⟨hfits, h⟩ | ⟨_, h⟩ <;> rw [h]
  · exact { invariantHoldsAtReset with
      memory := Memory.ofImage_wf hfits
      depth := fun _ _ => Nat.zero_le _
      slots := fun _ hb => by cases hb }
  · exact { hs with }

/-! ### The invariant over an instruction step (R24, R25, R28) -/

/-- The advance from an address the fetch accepts does not wrap (R25). -/
theorem toNat_add_le {pc : Word} (h : pc.toNat ≤ 0xFFE) {k : Word} (hk : k.toNat ≤ 4) :
    (pc + k).toNat ≤ 0x1002 := by
  rw [BitVec.toNat_add]
  omega

/-- Every target of the table of R24 is at most 0x10FE, the greatest sum `nnn + V[0]` (R25). -/
theorem State.Inv.pcAfter_le {s : State} (hs : s.Inv) (hpc : s.pc.toNat ≤ 0xFFE) (i : Instr) :
    (pcAfter i s).toNat ≤ 0x10FE := by
  have h2 : (s.pc + 2#16).toNat ≤ 0x1002 := toNat_add_le hpc (by decide)
  have h4 : (s.pc + 4#16).toNat ≤ 0x1002 := toNat_add_le hpc (by decide)
  cases i with
  | ret =>
    have hw := hs.returnBound
    simp only [pcAfter]
    cases hst : s.stack with
    | nil => exact hs.pcBound
    | cons w rest =>
      have := hw w (by simp [hst])
      simp only [List.headD_cons]
      omega
  | jp nnn | call nnn =>
    simp only [pcAfter, absolute_eq, BitVec.toNat_ofNat]
    omega
  | jpV0 nnn =>
    simp only [pcAfter, BitVec.toNat_ofNat]
    omega
  | seImm _ _ | sneImm _ _ | seReg _ _ | sneReg _ _ | skp _ | sknp _ =>
    simp only [pcAfter]
    split <;> omega
  | _ => simp only [pcAfter]; omega

/-- A pushed return address stays within the bounds of the stack (R25, R28). -/
theorem State.Inv.push {s : State} (hs : s.Inv) (hroom : s.params.stackDepth ≠ some s.stack.length)
    {w : Word} (hw : w.toNat ≤ 0x1000) : State.Inv { s with stack := w :: s.stack } :=
  { hs with
    returnBound := fun u hu => by
      rcases List.mem_cons.mp hu with rfl | hu
      · exact hw
      · exact hs.returnBound u hu
    depth := fun d hd => by
      have hle := hs.depth d hd
      have hne : s.stack.length ≠ d := fun h => hroom (h ▸ hd)
      simp only [List.length_cons]
      omega }

/-- Popping an entry keeps the bounds of the stack. -/
theorem State.Inv.pop {s : State} (hs : s.Inv) {w : Word} {rest : List Word} (h : s.stack = w :: rest) :
    State.Inv { s with stack := rest } :=
  { hs with
    returnBound := fun u hu => hs.returnBound u (by simp [h, hu])
    depth := fun d hd => by
      have hle := hs.depth d hd
      simp only [h, List.length_cons] at hle
      exact Nat.le_of_succ_le hle }

/-- An effect on a core that has not faulted keeps the invariant, or latches a fault. -/
theorem Effect.inv {s t : State} {i : Instr} (e : Effect s i t) (hs : s.Inv) (hf : s.fault = none)
    (hpc : s.pc.toNat ≤ 0xFFE) : t.Inv ∨ ∃ c, t = s.raise c := by
  have htarget := hs.pcAfter_le hpc i
  cases e with
  | raise _ => exact .inr ⟨_, rfl⟩
  | push nnn hroom =>
    have hret : (s.pc + 2#16).toNat ≤ 0x1000 := by
      rw [BitVec.toNat_add]
      simp only [BitVec.toNat_ofNat]
      omega
    exact .inl { hs.push hroom hret with pcBound := htarget }
  | pop hst => exact .inl { hs.pop hst with pcBound := htarget }
  | memory _ ha => exact .inl { hs with pcBound := htarget, memory := Memory.writeBytes_wf hs.memory ha }
  | _ => exact .inl { hs with pcBound := htarget, notBoth := .inl hf }

/-- An instruction step of a core that has not faulted keeps the invariant, or latches a fault. -/
theorem State.Inv.instructionStep {s t : State} (hs : s.Inv) (hf : s.fault = none)
    (h : instructionStep s = .next t) : t.Inv ∨ ∃ c, t = s.raise c := by
  by_cases hpc : s.pc.toNat ≤ 0xFFE
  · unfold Machine.instructionStep at h
    rw [State.fetch_of_le hpc] at h
    simp only [runWord] at h
    split at h
    · exact (exec_effect h).inv hs hf hpc
    · obtain rfl := Host.Outcome.next.inj h
      have hadd : (s.pc + 2#16).toNat ≤ 0x1002 := toNat_add_le hpc (by decide)
      exact .inl { hs with pcBound := hadd.trans (by decide) }
  · unfold Machine.instructionStep at h
    rw [State.fetch_of_gt (Nat.lt_of_not_le hpc)] at h
    exact .inr ⟨_, (Host.Outcome.next.inj h).symm⟩

/-! ### The invariant over a step of the core (R96, R100, R103) -/

/-- A slot that raises a fault ends the `Tick`, on a core that was not waiting. -/
theorem State.Inv.closeSlot_raise {s : State} (hs : s.Inv) (hw : s.wait = none) (c : Cause) :
    (s.raise c).closeSlot.Inv :=
  { hs with slots := fun _ hb => (by cases hb), notBoth := .inr hw, tickOver := .inr rfl }

/-- Using a slot that is left keeps the invariant. -/
theorem State.Inv.closeSlot {s : State} {used : Nat} (hs : s.Inv) (hb : s.batch = some used)
    (hused : used < s.params.stepsPerTick) : s.closeSlot.Inv := by
  have hf : s.fault = none := hs.tickOver.resolve_right (by simp [hb])
  rw [State.closeSlot_eq, if_pos hf]
  refine { hs with slots := fun n hn => ?_, tickOver := .inl hf }
  simp only [hb, Option.map_some, Option.some.injEq] at hn
  exact hn ▸ hused

/-- A step slot of the `Tick` in flight keeps the invariant. -/
theorem State.Inv.stepSlot {s t : State} {used : Nat} (hs : s.Inv) (hf : s.fault = none) (hb : s.batch = some used)
    (hused : used < s.params.stepsPerTick) (h : stepSlot s = .next t) : t.closeSlot.Inv := by
  cases hw : s.wait with
  | some r =>
    obtain rfl := Host.Outcome.next.inj ((stepSlot_of_some hw).symm.trans h)
    exact hs.closeSlot hb hused
  | none =>
    have hstep := (stepSlot_of_none hw).symm.trans h
    rcases hs.instructionStep hf hstep with ht | ⟨c, rfl⟩
    · obtain ⟨-, -, -, hparams, hbatch, -⟩ := instructionStep_untouched hstep
      exact ht.closeSlot (hbatch.trans hb) (hparams ▸ hused)
    · exact hs.closeSlot_raise hw c

/-- The end of a batch keeps the invariant. -/
theorem State.Inv.closeBatch {s : State} (hs : s.Inv) : s.closeBatch.Inv := by
  rw [State.closeBatch, State.endBatch_eq]
  exact { hs with slots := fun _ hb => (by cases hb), tickOver := .inr rfl }

/-- A step of the core keeps the invariant. -/
theorem State.Inv.coreStep {s t : State} (hs : s.Inv) (h : coreStep s = .next t) : t.Inv := by
  rcases coreStep_cases h with ⟨_, rfl⟩ | ⟨used, hf, hb, hused, u, hu, rfl⟩ | ⟨_, _, _, _, rfl⟩
  · exact hs
  · exact hs.stepSlot hf hb hused hu
  · exact hs.closeBatch

/-! ### The invariant over the moves of the environment (R36, R95, R101, R102) -/

/-- The schedule is no part of the invariant. -/
theorem State.Inv.withSchedule {s : State} (hs : s.Inv) (rest : List Move) :
    State.Inv { s with schedule := rest } := { hs with }

/-- A `Tick` that starts has used no slot, and a fault that is latched keeps it from starting. -/
theorem State.Inv.startTick {s : State} (hs : s.Inv) : s.startTick.Inv := by
  rw [State.startTick_eq]
  split
  · rename_i hf
    refine { hs with slots := fun n hn => ?_, tickOver := .inl hf }
    obtain rfl := Option.some.inj hn
    exact Nat.zero_le _
  · exact hs

/-- A key release loads one register and ends the wait, or does nothing. -/
theorem State.Inv.keyRelease {s : State} (hs : s.Inv) (k : Key) : (s.keyRelease k).Inv := by
  rcases s.keyRelease_cases k with ⟨hf, r, _, h⟩ | h <;> rw [h]
  · exact { hs with notBoth := .inl hf }
  · exact hs

/-- A key going up keeps the invariant. -/
theorem State.Inv.keyUp {s t : State} (hs : s.Inv) {k : Key} (h : s.keyUp k = .next t) : t.Inv := by
  obtain ⟨_, rfl⟩ := State.keyUp_next h
  have hlevel : State.Inv { s with keys := s.keys.set k.val false } := { hs with }
  exact hlevel.keyRelease k

/-- Settles O58, by the moves a step can be: the core's, `Tick`, a key going down, a key going up, a load. -/
theorem invariantIsKept : Obligations.InvariantIsKept := by
  intro s t hs h
  rcases step_cases h with ⟨rest, _, hcore⟩ | ⟨rest, _, _, rfl⟩ | ⟨k, rest, _, rfl⟩ | ⟨k, rest, _, hup⟩ |
    ⟨image, rest, _, rfl⟩
  · exact (hs.withSchedule rest).coreStep hcore
  · exact (hs.withSchedule rest).startTick
  · exact { hs with }
  · exact (hs.withSchedule rest).keyUp hup
  · exact (hs.withSchedule rest).load image

end Sys2Proof.Machine
end

section
/-! SUPPORT. Accesses to memory: one cell in range, the fault of a span that leaves the address space, the fetch, and
the bytes `LD [I], Vx` stores as a fetch sees them (spec/20_memory.md R50 to R56, R62). -/

namespace Sys2Proof.Machine

/-! ### The fault of a span (R53, R182) -/

/-- The fault of a span names its lowest address above 4095: the first one of all, or the base of the span. -/
theorem outOfRange_eq (base : Nat) : outOfRange base = .memoryOutOfRange (if base ≤ 4095 then 4096 else base) := by
  unfold outOfRange memSize
  congr 1
  split <;> omega

/-- Settles O7: the bounds check fails, and the read and the write answer the fault of the span. -/
theorem outOfRangeAccessFaults : Obligations.OutOfRangeAccessFaults := by
  intro s base len bytes hout hpos hlen
  have hbounds : ¬(len = 0 ∨ base + len ≤ memSize) := by unfold memSize; omega
  rw [State.memRead_eq, State.memWrite_eq, hlen, if_neg hbounds, if_neg hbounds, outOfRange_eq]
  exact ⟨rfl, rfl⟩

/-! ### One cell (R50, R52) -/

/-- Settles O6: the access is in bounds, and the cell is read and written by the laws of one byte. -/
theorem inRangeAccessSucceeds : Obligations.InRangeAccessSucceeds := by
  intro s a b hwf ha
  have hbounds : 1 = 0 ∨ a + 1 ≤ memSize := .inr (Nat.succ_le_succ ha)
  exact ⟨(s.memRead_eq a 1).trans (if_pos hbounds), _, (s.memWrite_eq a [b]).trans (if_pos hbounds), rfl,
    Memory.read_write hwf a b⟩

/-- Settles O8: a write keeps the canonical form, which what memory reads as determines. -/
theorem memoryFormIsCanonical : Obligations.MemoryFormIsCanonical :=
  ⟨fun _ _ b hwf ha => Memory.write_wf hwf ha b, fun _ _ hwf hwf' heq => Memory.ext_of_wf hwf hwf' heq⟩

/-! ### The fetch (R55, R91) -/

/-- Settles O9, by the two cases of the fetch; at 0xFFF the lowest address out of range is the next one. -/
theorem fetchIsBigEndian : Obligations.FetchIsBigEndian := by
  refine fun s => ⟨fun hle => ?word, fun heq => ?last, fun hgt => ?above⟩
  case word => exact ⟨_, State.fetch_of_le hle, toNat_wordOfBytes _ _⟩
  case last => rw [State.fetch_of_gt (by omega), outOfRange_eq, if_pos (by omega)]
  case above => rw [State.fetch_of_gt (by omega), outOfRange_eq, if_neg (by omega)]

/-! ### The bytes `LD [I], Vx` stores (R62, R154) -/

/-- `LD [I], Vx` whose span lies in the address space stores V0 to Vx. -/
theorem execStRegs_of_le {s : State} {x : Reg} (h : s.idx.toNat + x.val ≤ 4095) :
    execStRegs x s = .next { s with
      pc := s.pc + 2#16, mem := Memory.writeBytes s.mem s.idx.toNat (s.regsUpTo x) } :=
  (execStRegs_eq x s).trans (if_pos (Nat.succ_le_succ h))

/-- The byte of a stored register is read back at its address. -/
theorem State.read_writeBytes_regsUpTo {s : State} (hwf : Memory.wf s.mem = true) {x k : Reg}
    (h : s.idx.toNat + x.val ≤ 4095) (hk : k ≤ x) :
    Memory.read (Memory.writeBytes s.mem s.idx.toNat (s.regsUpTo x)) (s.idx.toNat + k.val) = s.reg k := by
  have hspan : s.idx.toNat + (s.regsUpTo x).length ≤ memSize := by
    rw [State.length_regsUpTo]
    exact Nat.succ_le_succ h
  have hin : k.val < (s.regsUpTo x).length := by
    rw [State.length_regsUpTo]
    exact Nat.lt_succ_of_le hk
  rw [Memory.read_writeBytes hwf hspan, if_pos (by omega), Nat.add_sub_cancel_left, State.getD_regsUpTo s x k hk]

/-- Settles O32: the fetch reads the bytes of V[k] and V[k+1], both within the span just stored. -/
theorem storeIsSeenByFetch : Obligations.StoreIsSeenByFetch := by
  intro s t x k pc hwf hspan hk hpc hstore
  obtain rfl := Host.Outcome.next.inj ((execStRegs_of_le hspan).symm.trans hstore)
  have hnext : (k + 1).val = k.val + 1 := Fin.val_add_one_of_lt (hk.trans_le (Fin.le_last x))
  have hle : k + 1 ≤ x := Fin.add_one_le_of_lt hk
  have hlow := State.read_writeBytes_regsUpTo hwf hspan hk.le
  have hhigh := State.read_writeBytes_regsUpTo hwf hspan hle
  have hlt : k.val < x.val := hk
  rw [State.fetch_of_le (show pc.toNat ≤ 0xFFE by omega)]
  dsimp only
  rw [hpc, hlow, Nat.add_assoc, ← hnext, hhigh]

end Sys2Proof.Machine
end

section
/-! SUPPORT. The decoder, the encoder and the opcode map against each other: what the decoder answers by family, the two
inversions, the rows of the map, and the step at a word that is no instruction (spec/30_encoding.md R70 to R78). -/

namespace Sys2Proof

/-! ### The decoder by family (R76, R78) -/

/-- What the decoder answers, by the family digit of the word: the decoding procedure of R78. -/
theorem decodeWord_cases (op : Word) :
    (fieldH op = 0x0#4 ∧ decodeWord op = decodeFamily0 op) ∨
    (fieldH op = 0x1#4 ∧ decodeWord op = some (.jp (fieldNNN op))) ∨
    (fieldH op = 0x2#4 ∧ decodeWord op = some (.call (fieldNNN op))) ∨
    (fieldH op = 0x3#4 ∧ decodeWord op = some (.seImm (fieldX op) (fieldKK op))) ∨
    (fieldH op = 0x4#4 ∧ decodeWord op = some (.sneImm (fieldX op) (fieldKK op))) ∨
    (fieldH op = 0x5#4 ∧ decodeWord op = if fieldN op = 0 then some (.seReg (fieldX op) (fieldY op)) else none) ∨
    (fieldH op = 0x6#4 ∧ decodeWord op = some (.ldImm (fieldX op) (fieldKK op))) ∨
    (fieldH op = 0x7#4 ∧ decodeWord op = some (.addImm (fieldX op) (fieldKK op))) ∨
    (fieldH op = 0x8#4 ∧ decodeWord op = decodeFamily8 (fieldN op) (fieldX op) (fieldY op)) ∨
    (fieldH op = 0x9#4 ∧ decodeWord op = if fieldN op = 0 then some (.sneReg (fieldX op) (fieldY op)) else none) ∨
    (fieldH op = 0xA#4 ∧ decodeWord op = some (.ldI (fieldNNN op))) ∨
    (fieldH op = 0xB#4 ∧ decodeWord op = some (.jpV0 (fieldNNN op))) ∨
    (fieldH op = 0xC#4 ∧ decodeWord op = some (.rnd (fieldX op) (fieldKK op))) ∨
    (fieldH op = 0xD#4 ∧ decodeWord op = some (.drw (fieldX op) (fieldY op) (fieldN op))) ∨
    (fieldH op = 0xE#4 ∧ decodeWord op = decodeFamilyE (fieldKK op) (fieldX op)) ∨
    (fieldH op = 0xF#4 ∧ decodeWord op = decodeFamilyF (fieldKK op) (fieldX op)) := by
  have hdigit := (fieldH op).isLt
  unfold decodeWord
  split <;> simp_all [← BitVec.toNat_inj]
  omega

/-- The words of family 0 that are no instruction. -/
theorem decodeFamily0_eq_none_iff (op : Word) : decodeFamily0 op = none ↔ op ≠ 0x00E0#16 ∧ op ≠ 0x00EE#16 := by
  unfold decodeFamily0
  split <;> simp_all

/-- The low digits of family 8 that are no instruction. -/
theorem decodeFamily8_eq_none_iff (n : BitVec 4) (x y : Reg) :
    decodeFamily8 n x y = none ↔ n ∈ [0x8#4, 0x9#4, 0xA#4, 0xB#4, 0xC#4, 0xD#4, 0xF#4] := by
  have hdigit := n.isLt
  unfold decodeFamily8
  split <;> simp_all [← BitVec.toNat_inj]
  omega

/-- The low bytes of family E that are no instruction. -/
theorem decodeFamilyE_eq_none_iff (kk : Byte) (x : Reg) : decodeFamilyE kk x = none ↔ kk ∉ [0x9E#8, 0xA1#8] := by
  unfold decodeFamilyE
  split <;> simp_all [← BitVec.toNat_inj]

/-- The low bytes of family F that are no instruction. -/
theorem decodeFamilyF_eq_none_iff (kk : Byte) (x : Reg) :
    decodeFamilyF kk x = none ↔
      kk ∉ [0x07#8, 0x0A#8, 0x15#8, 0x18#8, 0x1E#8, 0x29#8, 0x33#8, 0x55#8, 0x65#8] := by
  unfold decodeFamilyF
  split <;> simp_all [← BitVec.toNat_inj]

/-- Settles O5: the family digit picks one line of the table, and what its family refuses is that line. -/
theorem unrecognisedWordsByFamily : Obligations.UnrecognisedWordsByFamily := by
  intro op
  rcases decodeWord_cases op with ⟨hd, h⟩ | ⟨hd, h⟩ | ⟨hd, h⟩ | ⟨hd, h⟩ | ⟨hd, h⟩ | ⟨hd, h⟩ | ⟨hd, h⟩ | ⟨hd, h⟩ |
    ⟨hd, h⟩ | ⟨hd, h⟩ | ⟨hd, h⟩ | ⟨hd, h⟩ | ⟨hd, h⟩ | ⟨hd, h⟩ | ⟨hd, h⟩ | ⟨hd, h⟩ <;>
    simp [hd, h, decodeFamily0_eq_none_iff, decodeFamily8_eq_none_iff, decodeFamilyE_eq_none_iff,
      decodeFamilyF_eq_none_iff]

/-! ### Decoding inverts encoding (R70 to R74) -/

/-- The decoder reads an instruction back from its word: the format gives the fields back, and the family digit and the
sub-opcode pick its line of the procedure. -/
@[simp] theorem decodeWord_encodeWord (i : Instr) : decodeWord (encodeWord i) = some i := by
  cases i with
  | cls | ret => rfl
  | ldReg | or | and | xor | addReg | sub | shr | subn | shl => simp [encodeWord, decodeWord, decodeFamily8]
  | skp | sknp => simp [encodeWord, decodeWord, decodeFamilyE]
  | ldVxDT | ldVxK | ldDTVx | ldSTVx | addI | ldF | ldB | stRegs | ldRegs =>
    simp [encodeWord, decodeWord, decodeFamilyF]
  | _ => simp [encodeWord, decodeWord]

/-- Settles O2: the two bytes are those of the word, and the decoder reads the instruction back from the word. -/
theorem decodeInvertsEncode : Obligations.DecodeInvertsEncode := by
  intro i rest _
  rw [encode, decode_bytesOfWord, decodeWord_encodeWord]

/-! ### Encoding inverts decoding (R74, R77) -/

section
variable {op : Word} {h : BitVec 4}

/-- A word is the `NNN` format of its family digit and its address field. -/
theorem formatNNN_of_fieldH (hd : fieldH op = h) : formatNNN h (fieldNNN op) = op :=
  hd ▸ formatNNN_fields op

/-- A word is the `XKK` format of its family digit and its fields `x` and `kk`. -/
theorem formatXKK_of_fieldH (hd : fieldH op = h) : formatXKK h (fieldX op) (fieldKK op) = op :=
  hd ▸ formatXKK_fields op

/-- A word is the `XYN` format of its family digit, its fields `x` and `y`, and its low digit. -/
theorem formatXYN_of_fieldH {n : BitVec 4} (hd : fieldH op = h) (hn : fieldN op = n) :
    formatXYN h (fieldX op) (fieldY op) n = op :=
  hd ▸ hn ▸ formatXYN_fields op

end

/-- What family 0 reads from a word is encoded as that word. -/
theorem encodeWord_of_decodeFamily0 {op : Word} {i : Instr} (h : decodeFamily0 op = some i) : encodeWord i = op := by
  unfold decodeFamily0 at h
  split_ifs at h with h0 hE <;> obtain rfl := Option.some.inj h
  · exact h0.symm
  · exact hE.symm

/-- What family 8 reads from its fields is encoded from those fields. -/
theorem encodeWord_of_decodeFamily8 {n : BitVec 4} {x y : Reg} {i : Instr} (h : decodeFamily8 n x y = some i) :
    encodeWord i = formatXYN 0x8#4 x y n := by
  unfold decodeFamily8 at h
  split at h <;> cases h <;> rename_i hn
  all_goals exact congrArg (formatXYN 0x8#4 x y) (BitVec.eq_of_toNat_eq hn.symm)

/-- What family E reads from its fields is encoded from those fields. -/
theorem encodeWord_of_decodeFamilyE {kk : Byte} {x : Reg} {i : Instr} (h : decodeFamilyE kk x = some i) :
    encodeWord i = formatXKK 0xE#4 x kk := by
  unfold decodeFamilyE at h
  split at h <;> cases h <;> rename_i hkk
  all_goals exact congrArg (formatXKK 0xE#4 x) (BitVec.eq_of_toNat_eq hkk.symm)

/-- What family F reads from its fields is encoded from those fields. -/
theorem encodeWord_of_decodeFamilyF {kk : Byte} {x : Reg} {i : Instr} (h : decodeFamilyF kk x = some i) :
    encodeWord i = formatXKK 0xF#4 x kk := by
  unfold decodeFamilyF at h
  split at h <;> cases h <;> rename_i hkk
  all_goals exact congrArg (formatXKK 0xF#4 x) (BitVec.eq_of_toNat_eq hkk.symm)

/-- Settles O3, family by family: the fields the decoder reads are all there is in the word besides its family digit. -/
theorem encodeInvertsDecode : Obligations.EncodeInvertsDecode := by
  intro op i h
  rcases decodeWord_cases op with ⟨hd, e⟩ | ⟨hd, e⟩ | ⟨hd, e⟩ | ⟨hd, e⟩ | ⟨hd, e⟩ | ⟨hd, e⟩ | ⟨hd, e⟩ | ⟨hd, e⟩ |
    ⟨hd, e⟩ | ⟨hd, e⟩ | ⟨hd, e⟩ | ⟨hd, e⟩ | ⟨hd, e⟩ | ⟨hd, e⟩ | ⟨hd, e⟩ | ⟨hd, e⟩ <;> rw [e] at h
  · exact encodeWord_of_decodeFamily0 h
  · cases h; exact formatNNN_of_fieldH hd
  · cases h; exact formatNNN_of_fieldH hd
  · cases h; exact formatXKK_of_fieldH hd
  · cases h; exact formatXKK_of_fieldH hd
  · split_ifs at h with hn; cases h; exact formatXYN_of_fieldH hd hn
  · cases h; exact formatXKK_of_fieldH hd
  · cases h; exact formatXKK_of_fieldH hd
  · exact (encodeWord_of_decodeFamily8 h).trans (formatXYN_of_fieldH hd rfl)
  · split_ifs at h with hn; cases h; exact formatXYN_of_fieldH hd hn
  · cases h; exact formatNNN_of_fieldH hd
  · cases h; exact formatNNN_of_fieldH hd
  · cases h; exact formatXKK_of_fieldH hd
  · cases h; exact formatXYN_of_fieldH hd rfl
  · exact (encodeWord_of_decodeFamilyE h).trans (formatXKK_of_fieldH hd)
  · exact (encodeWord_of_decodeFamilyF h).trans (formatXKK_of_fieldH hd)

/-! ### The rows of the opcode map (R74) -/

/-- Two rows that fix a common bit to different values share no word. -/
theorem Row.not_matches_both {a b : Row} (hbit : a.code &&& b.mask ≠ b.code &&& a.mask) (op : Word) :
    ¬(a.matches op = true ∧ b.matches op = true) := by
  simp only [Row.matches, beq_iff_eq]
  rintro ⟨ha, hb⟩
  rw [← ha, ← hb, BitVec.and_assoc, BitVec.and_assoc, BitVec.and_comm a.mask] at hbit
  exact hbit rfl

/-- Every two rows fix a common bit to different values. -/
theorem opcodeRows_pairwise_bit : opcodeRows.Pairwise (fun a b => a.code &&& b.mask ≠ b.code &&& a.mask) := by
  decide

open Laws.EncodesInRow in
/-- Every instruction is encoded in its row of R74. -/
theorem encodesInRow (i : Instr) : Statement i := by
  cases i
  exacts [cls, ret, jp _, call _, seImm _ _, sneImm _ _, seReg _ _, sneReg _ _, ldImm _ _, addImm _ _, ldReg _ _,
    or _ _, and _ _, xor _ _, addReg _ _, sub _ _, shr _ _, subn _ _, shl _ _, ldI _, jpV0 _, rnd _ _, drw _ _ _,
    skp _, sknp _, ldVxDT _, ldVxK _, ldDTVx _, ldSTVx _, addI _, ldF _, ldB _, stRegs _, ldRegs _]

section
variable {op : Word} {h : BitVec 4}

/-- A word matches a row when the digits the row's mask keeps are the digits of its match. -/
theorem matches_nibbles_iff (a b c d a' b' c' d' : BitVec 4) :
    Row.matches ⟨nibbles a b c d, nibbles a' b' c' d'⟩ op = true ↔
      fieldH op &&& a' = a ∧ regBits (fieldX op) &&& b' = b ∧ regBits (fieldY op) &&& c' = c ∧
        fieldN op &&& d' = d := by
  conv_lhs => rw [← nibbles_fields op]
  rw [Row.matches, nibbles_and, beq_iff_eq, nibbles_inj]

/-- A digit under the mask digit F is kept. -/
theorem and_digitF (d : BitVec 4) : d &&& 0xF#4 = d := BitVec.and_allOnes

/-- A word of a row that fixes the family digit has that family digit. -/
theorem fieldH_of_matches (hm : Row.matches ⟨nibbles h 0 0 0, nibbles 0xF#4 0 0 0⟩ op = true) : fieldH op = h := by
  obtain ⟨hd, -, -, -⟩ := (matches_nibbles_iff ..).mp hm
  rwa [and_digitF] at hd

/-- A word of a row that fixes the family digit and the low digit is the format `XYN` of these. -/
theorem formatXYN_of_matches {n : BitVec 4}
    (hm : Row.matches ⟨nibbles h 0 0 n, nibbles 0xF#4 0 0 0xF#4⟩ op = true) :
    formatXYN h (fieldX op) (fieldY op) n = op := by
  obtain ⟨hd, -, -, hn⟩ := (matches_nibbles_iff ..).mp hm
  rw [and_digitF] at hd hn
  exact formatXYN_of_fieldH hd hn

/-- A word of a row that fixes the family digit and the low byte is the format `XKK` of these. -/
theorem formatXKK_of_matches (c n : BitVec 4)
    (hm : Row.matches ⟨nibbles h 0 c n, nibbles 0xF#4 0 0xF#4 0xF#4⟩ op = true) :
    formatXKK h (fieldX op) (c ++ n) = op := by
  obtain ⟨hd, -, hc, hn⟩ := (matches_nibbles_iff ..).mp hm
  rw [and_digitF] at hd hc hn
  rw [← hc]
  exact formatXYN_of_fieldH hd hn

/-- A word of a row that fixes every bit is the row's match. -/
theorem eq_of_matches {w : Word} (hm : Row.matches ⟨w, 0xFFFF#16⟩ op = true) : w = op :=
  (beq_iff_eq.mp hm).symm.trans BitVec.and_allOnes

end

/-- Every word of the row of an instruction is the encoding of an instruction of that row: the one with the fields of the
word. -/
theorem exists_encodeWord_of_matches {op : Word} :
    ∀ j : Instr, j.row.matches op = true → ∃ i, encodeWord i = op ∧ i.row = j.row
  | .cls, h => ⟨.cls, eq_of_matches h, rfl⟩
  | .ret, h => ⟨.ret, eq_of_matches h, rfl⟩
  | .jp _, h => ⟨.jp _, formatNNN_of_fieldH (fieldH_of_matches h), rfl⟩
  | .call _, h => ⟨.call _, formatNNN_of_fieldH (fieldH_of_matches h), rfl⟩
  | .seImm _ _, h => ⟨.seImm _ _, formatXKK_of_fieldH (fieldH_of_matches h), rfl⟩
  | .sneImm _ _, h => ⟨.sneImm _ _, formatXKK_of_fieldH (fieldH_of_matches h), rfl⟩
  | .seReg _ _, h => ⟨.seReg _ _, formatXYN_of_matches h, rfl⟩
  | .sneReg _ _, h => ⟨.sneReg _ _, formatXYN_of_matches h, rfl⟩
  | .ldImm _ _, h => ⟨.ldImm _ _, formatXKK_of_fieldH (fieldH_of_matches h), rfl⟩
  | .addImm _ _, h => ⟨.addImm _ _, formatXKK_of_fieldH (fieldH_of_matches h), rfl⟩
  | .ldReg _ _, h => ⟨.ldReg _ _, formatXYN_of_matches h, rfl⟩
  | .or _ _, h => ⟨.or _ _, formatXYN_of_matches h, rfl⟩
  | .and _ _, h => ⟨.and _ _, formatXYN_of_matches h, rfl⟩
  | .xor _ _, h => ⟨.xor _ _, formatXYN_of_matches h, rfl⟩
  | .addReg _ _, h => ⟨.addReg _ _, formatXYN_of_matches h, rfl⟩
  | .sub _ _, h => ⟨.sub _ _, formatXYN_of_matches h, rfl⟩
  | .shr _ _, h => ⟨.shr _ _, formatXYN_of_matches h, rfl⟩
  | .subn _ _, h => ⟨.subn _ _, formatXYN_of_matches h, rfl⟩
  | .shl _ _, h => ⟨.shl _ _, formatXYN_of_matches h, rfl⟩
  | .ldI _, h => ⟨.ldI _, formatNNN_of_fieldH (fieldH_of_matches h), rfl⟩
  | .jpV0 _, h => ⟨.jpV0 _, formatNNN_of_fieldH (fieldH_of_matches h), rfl⟩
  | .rnd _ _, h => ⟨.rnd _ _, formatXKK_of_fieldH (fieldH_of_matches h), rfl⟩
  | .drw _ _ _, h => ⟨.drw _ _ _, formatXYN_of_fieldH (fieldH_of_matches h) rfl, rfl⟩
  | .skp _, h => ⟨.skp _, formatXKK_of_matches 0x9#4 0xE#4 h, rfl⟩
  | .sknp _, h => ⟨.sknp _, formatXKK_of_matches 0xA#4 0x1#4 h, rfl⟩
  | .ldVxDT _, h => ⟨.ldVxDT _, formatXKK_of_matches 0x0#4 0x7#4 h, rfl⟩
  | .ldVxK _, h => ⟨.ldVxK _, formatXKK_of_matches 0x0#4 0xA#4 h, rfl⟩
  | .ldDTVx _, h => ⟨.ldDTVx _, formatXKK_of_matches 0x1#4 0x5#4 h, rfl⟩
  | .ldSTVx _, h => ⟨.ldSTVx _, formatXKK_of_matches 0x1#4 0x8#4 h, rfl⟩
  | .addI _, h => ⟨.addI _, formatXKK_of_matches 0x1#4 0xE#4 h, rfl⟩
  | .ldF _, h => ⟨.ldF _, formatXKK_of_matches 0x2#4 0x9#4 h, rfl⟩
  | .ldB _, h => ⟨.ldB _, formatXKK_of_matches 0x3#4 0x3#4 h, rfl⟩
  | .stRegs _, h => ⟨.stRegs _, formatXKK_of_matches 0x5#4 0x5#4 h, rfl⟩
  | .ldRegs _, h => ⟨.ldRegs _, formatXKK_of_matches 0x6#4 0x5#4 h, rfl⟩

/-- Settles O4: the words of a row are the encodings of its instructions, and these are the words the decoder reads as
such. -/
theorem decodeFollowsMatchAndMask : Obligations.DecodeFollowsMatchAndMask := by
  refine ⟨rfl, opcodeRows_pairwise_bit.imp Row.not_matches_both, fun op row hrow => ⟨fun hm => ?reads, ?isRow⟩⟩
  case reads =>
    obtain ⟨j, -, rfl⟩ := List.mem_map.mp hrow
    obtain ⟨i, rfl, hi⟩ := exists_encodeWord_of_matches j hm
    exact ⟨i, decodeWord_encodeWord i, hi⟩
  case isRow =>
    rintro ⟨i, hdec, rfl⟩
    obtain ⟨-, -, hm⟩ := encodesInRow i
    exact encodeInvertsDecode op i hdec ▸ hm

/-! ### Words of the encoding vectors (R55, R71, R74) -/

/-- Settles O1, by running the decoder on the thirteen words. -/
theorem knownWordsDecode : Obligations.KnownWordsDecode :=
  ⟨rfl, rfl, rfl, rfl, rfl, rfl, rfl, rfl, rfl, rfl, rfl, rfl, rfl⟩

end Sys2Proof

namespace Sys2Proof.Machine

/-! ### The step at a word that is no instruction (R75, R92) -/

/-- Settles O11: the step is the slot, the slot is the instruction step, which only advances, and the slot is used. -/
theorem unrecognisedWordOnlyAdvances : Obligations.UnrecognisedWordOnlyAdvances := by
  intro s used rest op hat hw hpc hdec
  have hslot : stepSlot { s with schedule := rest } = .next (State.advance { s with schedule := rest }) :=
    (stepSlot_of_none (s := { s with schedule := rest }) hw).trans
      (instructionStep_of_unrecognised (s := { s with schedule := rest }) hpc hdec)
  rw [step_of_atSlot hat, hslot]
  obtain ⟨-, hf, hb, -⟩ := hat
  simp [mapNext, State.closeSlot_eq, State.advance, hf, hb]

end Sys2Proof.Machine
end

section
/-! SUPPORT. The execution cycle: what a step slot and the end of a batch do to the state, what ends a key wait, what a
faulted core does, and one `Tick` of the schedule as a run of steps (spec/40_execution_cycle.md R90 to R104). -/

namespace Sys2Proof.Machine

/-! ### The end of a batch (R95, R97 to R99) -/

/-- The end of a batch as a step, spelled out (R97 to R99). -/
theorem State.closeBatch_eq (s : State) :
    s.closeBatch = { s with
      dt := decay s.dt
      st := decay s.st
      tone := decide (decay s.st ≠ 0x00#8)
      visible := s.fb
      batch := none
      requests := .present :: (if decay s.st = 0x00#8 then .toneOff else .toneOn) :: s.requests } := by
  rw [State.closeBatch, State.endBatch_eq]

/-- A timer is still above 0 after it has decayed exactly when it was above 1 (R97). -/
theorem decay_ne_zero_iff (b : Byte) : decay b ≠ 0x00#8 ↔ 1 < b.toNat := by
  rw [← BitVec.toNat_ne_iff_ne, toNat_decay, BitVec.toNat_zero]
  omega

/-- Settles O42: the step is the end of the batch, and the tone follows the sound timer as it was above 1 or not. -/
theorem batchEndDecaysTimers : Obligations.BatchEndDecaysTimers := by
  intro s rest hat
  have htone := decay_ne_zero_iff s.st
  refine ⟨_, step_of_atBatchEnd hat, ?_⟩
  rw [State.closeBatch_eq]
  refine ⟨toNat_decay s.dt, toNat_decay s.st, decide_eq_decide.mpr htone, rfl, ?requests, rfl⟩
  case requests =>
    by_cases h : 1 < s.st.toNat
    · simp [h, htone.mpr h]
    · simp [h, not_not.mp (mt htone.mp h)]

/-- Settles O60, by induction on the number of batch ends, each of which decays both timers once. -/
theorem timersCountBatches : Obligations.TimersCountBatches := by
  intro n s
  induction n with
  | zero => exact ⟨rfl, rfl⟩
  | succ n ih =>
    obtain ⟨hdt, hst⟩ := ih
    simp only [Function.iterate_succ_apply', State.closeBatch_eq, toNat_decay, hdt, hst, Nat.sub_sub, and_self]

/-! ### A step slot (R90 to R93, R96, R103) -/

/-- At a step slot the step is the state the slot gives, with the slot counted, or with the `Tick` over when the slot
raised a fault (R96, R100). -/
theorem step_of_atSlot_next {s t : State} {used : Nat} {rest : List Move} (hat : s.AtSlot used rest)
    (h : stepSlot { s with schedule := rest } = .next t) :
    step s = .next (if t.fault = none then { t with batch := some (used + 1) } else { t with batch := none }) := by
  obtain ⟨-, -, -, -, hbatch, -⟩ := stepSlot_untouched h
  rw [step_of_atSlot hat, h]
  obtain ⟨-, -, hb, -⟩ := hat
  simp only [mapNext, State.closeSlot_eq, hbatch, hb, Option.map_some]

/-- Settles O10: the slot is the instruction step, which is `exec` of the decoded instruction. -/
theorem stepRunsDecodedInstruction : Obligations.StepRunsDecodedInstruction := by
  intro s used rest i hat hw hpc _ hdec
  obtain ⟨t, ht⟩ := exec_next i { s with schedule := rest }
  have hslot : stepSlot { s with schedule := rest } = exec i { s with schedule := rest } :=
    (stepSlot_of_none (s := { s with schedule := rest }) hw).trans (instructionStep_of_decode hpc hdec)
  simp only [step_of_atSlot_next hat (hslot.trans ht), ht]

/-- The instruction step where the fetch runs out of memory (R91, R186). -/
theorem instructionStep_of_gt {s : State} (hpc : 0xFFE < s.pc.toNat) :
    instructionStep s = .next (s.raise (outOfRange s.pc.toNat)) := by
  simp only [instructionStep, State.fetch_of_gt hpc]

/-- Settles O12: the slot latches the fault of the fetch on the state before it, which ends the `Tick`. -/
theorem fetchFaultLeavesPc : Obligations.FetchFaultLeavesPc := by
  intro s used rest hat hw hpc
  have hslot := (stepSlot_of_none (s := { s with schedule := rest }) hw).trans (instructionStep_of_gt hpc)
  exact step_of_atSlot_next hat hslot

/-- Settles O43: the slot of a waiting core gives the state itself, and is counted. -/
theorem waitingSlotDoesNothing : Obligations.WaitingSlotDoesNothing := by
  intro s used rest r hat hw
  rw [step_of_atSlot_next hat (stepSlot_of_some hw)]
  obtain ⟨-, hf, -⟩ := hat
  exact congrArg _ (if_pos hf)

/-! ### A pending wait (R101, R103) -/

@[simp] theorem State.closeSlot_wait (s : State) : s.closeSlot.wait = s.wait := by
  rw [State.closeSlot_eq]
  split <;> rfl

@[simp] theorem State.closeBatch_wait (s : State) : s.closeBatch.wait = s.wait := by
  rw [State.closeBatch_eq]

@[simp] theorem State.startTick_wait (s : State) : s.startTick.wait = s.wait := by
  rw [State.startTick_eq]
  split <;> rfl

/-- No step of the core ends a pending wait: a step slot of a waiting core executes nothing (R103). -/
theorem coreStep_wait {s t : State} {r : Reg} (hw : s.wait = some r) (h : coreStep s = .next t) :
    t.wait = some r := by
  rcases coreStep_cases h with ⟨_, rfl⟩ | ⟨_, _, _, _, u, hu, rfl⟩ | ⟨_, _, _, _, rfl⟩
  · exact hw
  · obtain rfl := Host.Outcome.next.inj ((stepSlot_of_some hw).symm.trans hu)
    exact s.closeSlot_wait.trans hw
  · exact s.closeBatch_wait.trans hw

/-- Settles O44, by the moves a step can be: the core's, `Tick` and a key going down keep the wait; a key going up and a
load are the two that are left. -/
theorem onlyKeyUpOrLoadEndsWait : Obligations.OnlyKeyUpOrLoadEndsWait := by
  intro s t r hw h hne
  rcases step_cases h with ⟨rest, _, hcore⟩ | ⟨rest, _, _, rfl⟩ | ⟨k, rest, _, rfl⟩ | ⟨k, rest, hs, _⟩ |
    ⟨image, rest, hs, _⟩
  · exact absurd (coreStep_wait (s := { s with schedule := rest }) hw hcore) hne
  · exact absurd ((State.startTick_wait { s with schedule := rest }).trans hw) hne
  · exact absurd hw hne
  · exact .inl ⟨k, rest, hs⟩
  · exact .inr ⟨image, rest, hs⟩

/-! ### A latched fault (R104, R185) -/

/-- A whole `Tick` of a core that has faulted (R104). -/
theorem tick_of_fault {s : State} {c : Cause} (hf : s.fault = some c) : tick s = .next s := by
  simp only [tick, hf]

/-- A `Tick` that starts nothing: a fault is latched (R104). -/
theorem State.startTick_of_fault {s : State} {c : Cause} (hf : s.fault = some c) : s.startTick = s := by
  simp only [State.startTick, hf]

/-- Settles O45: the laws of a faulted core's step, key release, whole `Tick` and start of a `Tick`. -/
theorem faultedCoreIsHalted : Obligations.FaultedCoreIsHalted := by
  intro s c k hf
  refine ⟨fun rest hn => ?_, State.keyRelease_of_not_waiting (.inr (by simp [hf])) k, tick_of_fault hf,
    fun rest hs hb => ?_⟩
  · exact (step_of_coreIsNext hn).trans (coreStep_of_fault hf)
  · exact (step_of_tick hs hb).trans (congrArg _ (State.startTick_of_fault hf))

/-! ### One `Tick` as a run of steps (R95, R96, R100, R102) -/

/-- Nothing that is scheduled can land inside a `Tick`: with any `Tick` in flight the core is next, and its step leaves
the schedule as it is (R38, R102). -/
def State.ScheduleWaits (s : State) : Prop := ∀ used, State.CoreIsNext { s with batch := some used } s.schedule

/-- An empty schedule holds nothing that could land. -/
theorem State.scheduleWaits_of_nil {s : State} (h : s.schedule = []) : s.ScheduleWaits := fun _ => .inl ⟨h, h⟩

/-- A schedule whose first move has to wait inside a `Tick` waits as a whole. -/
theorem State.scheduleWaits_of_cons {s : State} {m : Move} {rest : List Move} (h : s.schedule = m :: rest)
    (hm : m = .tick ∨ (m ≠ .core ∧ s.params.keyDelivery = .batchBoundary)) : s.ScheduleWaits :=
  fun _ => .inr (.inr ⟨m, rest, h, ⟨Option.some_ne_none _, hm⟩, h⟩)

/-- Whether the schedule waits depends on the schedule and the parameters only. -/
theorem State.ScheduleWaits.congr {s t : State} (hs : s.ScheduleWaits) (hp : t.params = s.params)
    (hsched : t.schedule = s.schedule) : t.ScheduleWaits := by
  simpa only [State.ScheduleWaits, State.CoreIsNext, State.Defers, hp, hsched] using hs

/-- With no `Tick` in flight and nothing scheduled, a run of any length leaves the state as it is (R95, R212). -/
theorem run_idle {s : State} (hb : s.batch = none) (hs : s.schedule = []) (n : Nat) :
    Host.Core.run core n s = .next s := by
  induction n with
  | zero => rfl
  | succ n ih => exact (run_succ_of_next ((step_of_empty hs).trans (coreStep_of_idle hb)) n).trans ih

/-- The remaining slots after one that completed. -/
theorem runSlots_succ_of_next {s t : State} (h : stepSlot s = .next t) (hf : t.fault = none) (n : Nat) :
    runSlots (n + 1) s = runSlots n t := by
  simp only [runSlots, h, hf]

/-- A slot that raises a fault ends the `Tick` (R100). -/
theorem runSlots_succ_of_fault {s t : State} {c : Cause} (h : stepSlot s = .next t) (hf : t.fault = some c) (n : Nat) :
    runSlots (n + 1) s = .next t := by
  simp only [runSlots, h, hf]

/-- A batch counter set to what it is. -/
theorem State.withBatch_self {s : State} {batch : Option Nat} (h : s.batch = batch) :
    { s with batch := batch } = s := by
  rw [← h]

/-- The end of a batch does not depend on the count of used slots. -/
theorem State.closeBatch_withBatch {s : State} (hb : s.batch = none) (batch : Option Nat) :
    State.closeBatch { s with batch := batch } = s.endBatch := by
  rw [State.closeBatch_eq, State.endBatch_eq, hb]

/-- From any slot of a `Tick` in flight, the slots that are left and the end of the batch, one step each, are the rest
of the atomic `Tick`. A fault leaves steps over, in which nothing happens only when nothing is scheduled. -/
theorem run_slots_eq_runSlots {s : State} {n used : Nat} (hf : s.fault = none) (hb : s.batch = none)
    (hwait : s.ScheduleWaits) (hused : used + n = s.params.stepsPerTick)
    (hidle : ∀ t, runSlots n s = .next t → t.fault = none ∨ s.schedule = []) :
    Host.Core.run core (n + 1) { s with batch := some used } = runSlots n s := by
  induction n generalizing s used with
  | zero =>
    have hend : State.AtBatchEnd { s with batch := some used } s.schedule := ⟨hwait used, hf, used, rfl, hused.ge⟩
    refine (run_succ_of_next (step_of_atBatchEnd hend) 0).trans ?_
    exact congrArg Host.Outcome.next (State.closeBatch_withBatch hb (some used))
  | succ n ih =>
    have hlt : used < s.params.stepsPerTick := by omega
    have hat : State.AtSlot { s with batch := some used } used s.schedule := ⟨hwait used, hf, rfl, hlt⟩
    obtain ⟨t, ht, htb, htb'⟩ := stepSlot_withBatch s (some used)
    obtain ⟨-, -, -, hparams, -, hsched⟩ := stepSlot_untouched ht
    have hstep := step_of_atSlot_next hat htb'
    cases htf : t.fault with
    | none =>
      have hrest : runSlots (n + 1) s = runSlots n t := runSlots_succ_of_next ht htf n
      have hsum : (used + 1) + n = t.params.stepsPerTick := by rw [hparams]; omega
      rw [if_pos (show State.fault { t with batch := some used } = none from htf)] at hstep
      refine ((run_succ_of_next hstep (n + 1)).trans ?_).trans hrest.symm
      exact ih htf (htb.trans hb) (hwait.congr hparams hsched) hsum fun u hu => hsched ▸ hidle u (hrest.trans hu)
    | some c =>
      have hend : runSlots (n + 1) s = .next t := runSlots_succ_of_fault ht htf n
      have hnil : t.schedule = [] := hsched.trans ((hidle t hend).resolve_left (by simp [htf]))
      rw [if_neg (show State.fault { t with batch := some used } ≠ none by simp [htf])] at hstep
      refine ((run_succ_of_next hstep (n + 1)).trans ?_).trans hend.symm
      have hself : { t with batch := none } = t := State.withBatch_self (htb.trans hb)
      exact (run_idle (s := { t with batch := none }) rfl hnil (n + 1)).trans (congrArg _ hself)

/-- After the start of a `Tick`, its slots and the end of its batch, one step each, are the atomic `Tick` (R95). -/
theorem run_startTick_eq_tick {s : State} (hb : s.batch = none) (hwait : s.ScheduleWaits)
    (hidle : ∀ t, tick s = .next t → t.fault = none ∨ s.schedule = []) :
    Host.Core.run core (s.params.stepsPerTick + 1) s.startTick = tick s := by
  cases hf : s.fault with
  | none =>
    have htick : tick s = runSlots s.params.stepsPerTick s := by simp only [tick, hf]
    rw [State.startTick_eq, if_pos hf, htick]
    exact run_slots_eq_runSlots hf hb hwait (Nat.zero_add _) fun t ht => hidle t (htick.trans ht)
  | some c =>
    have hnil : s.schedule = [] := (hidle s (tick_of_fault hf)).resolve_left (by simp [hf])
    rw [State.startTick_of_fault hf, tick_of_fault hf]
    exact run_idle hb hnil _

/-- One `Tick` of the schedule, its start, its slots and its end one step each, is the atomic `Tick` (R95). -/
theorem run_tick {s : State} {rest : List Move} (hs : s.schedule = .tick :: rest) (hb : s.batch = none)
    (hwait : State.ScheduleWaits { s with schedule := rest })
    (hidle : ∀ t, tick { s with schedule := rest } = .next t → t.fault = none ∨ rest = []) :
    Host.Core.run core (s.params.stepsPerTick + 2) s = tick { s with schedule := rest } :=
  (run_succ_of_next (step_of_tick hs hb) _).trans (run_startTick_eq_tick hb hwait hidle)

/-- Settles O59: nothing lands inside the `Tick`, and no fault leaves steps over before a move that is scheduled. -/
theorem tickIsRunOfSteps : Obligations.TickIsRunOfSteps := by
  refine ⟨fun s hs hb => ?_, fun s t m rest hs hb hm ht hf => ?_⟩
  · exact run_tick hs hb (State.scheduleWaits_of_nil rfl) fun _ _ => .inr rfl
  · have hidle : ∀ u, tick { s with schedule := m :: rest } = .next u → u.fault = none ∨ m :: rest = [] := by
      intro u hu
      obtain rfl := Host.Outcome.next.inj (ht.symm.trans hu)
      exact .inl hf
    exact (run_tick hs hb (State.scheduleWaits_of_cons rfl hm) hidle).trans ht

end Sys2Proof.Machine
end

section
/-! SUPPORT. Control transfer: the return, the jumps, the round trip of a call, and the skips (spec/41_flow.md R110 to
R117). -/

namespace Sys2Proof.Machine

/-! ### `RET` (R27, R110, R112, R181, R186) -/

/-- Settles O13, by the two cases of the stack. -/
theorem retPopsIntoPc : Obligations.RetPopsIntoPc :=
  ⟨decodeWord_encodeWord .ret, fun _ _ _ hcons => execRet_of_cons hcons, fun _ hnil => execRet_of_nil hnil⟩

/-- Settles O16: the `CALL` has room, and the `RET` pops the entry it pushed. -/
theorem callThenRetReturns : Obligations.CallThenRetReturns :=
  fun _ nnn _ hroom => ⟨_, execCall_of_room hroom nnn, execRet_of_cons rfl⟩

/-! ### Jumps (R111, R117) -/

/-- Settles O14: the target is the absolute address of the word's `nnn`. -/
theorem jpSetsPc : Obligations.JpSetsPc := by
  intro s nnn
  rw [← absolute_eq]
  exact ⟨decodeWord_encodeWord (.jp nnn), rfl⟩

/-- The sum of a 12-bit address and a byte fits a word, so the target is the exact sum (R117, D30). -/
theorem toNat_offsetTarget (nnn : Addr12) (v0 : Byte) : (offsetTarget nnn v0).toNat = nnn.toNat + v0.toNat := by
  simp only [offsetTarget, absolute, byteToWord, BitVec.toNat_add, BitVec.toNat_setWidth]
  omega

/-- Settles O18: the program counter is the target, whose sum is exact. -/
theorem jpV0AddsOffset : Obligations.JpV0AddsOffset :=
  fun s nnn => ⟨s.setPc (offsetTarget nnn (s.reg 0)), rfl, toNat_offsetTarget nnn (s.reg 0), rfl⟩

/-! ### Skips (R113 to R116) -/

/-- The target of a skip instruction, by its condition (R24). -/
theorem pcAfter_of_skipCondition {i : Instr} {s : State} {b : Bool} (h : skipCondition i s = some b) :
    pcAfter i s = if b then s.pc + 4#16 else s.pc + 2#16 := by
  cases i with
  | seImm | sneImm | seReg | sneReg | skp | sknp => simp only [pcAfter, h, Option.some_inj]
  | _ => nomatch h

/-- A skip instruction whose condition is a proposition: A + 4 when it holds, A + 2 when it does not. -/
theorem exec_skip {i : Instr} {s : State} {p : Prop} [Decidable p] (h : skipCondition i s = some (decide p)) :
    exec i s = .next { s with pc := if p then s.pc + 4#16 else s.pc + 2#16 } := by
  simp only [exec_of_skipCondition (h ▸ Option.some_ne_none _), pcAfter_of_skipCondition h, decide_eq_true_eq]

/-- A skip instruction whose condition is that a proposition fails: A + 2 when it holds, A + 4 when it does not. -/
theorem exec_skip_not {i : Instr} {s : State} {p : Prop} [Decidable p] (h : skipCondition i s = some (decide ¬p)) :
    exec i s = .next { s with pc := if p then s.pc + 2#16 else s.pc + 4#16 } := by
  rw [exec_skip h, ite_not]

/-- Settles O17: the four words decode by their format, and each skip goes where its condition sends it. -/
theorem skipsTestRegisters : Obligations.SkipsTestRegisters := by
  refine fun s x y kk => ⟨?_, ?_, ?_, ?_, exec_skip rfl, exec_skip_not rfl, exec_skip rfl, exec_skip_not rfl⟩
  · exact decodeWord_encodeWord (.seImm x kk)
  · exact decodeWord_encodeWord (.sneImm x kk)
  · exact decodeWord_encodeWord (.seReg x y)
  · exact decodeWord_encodeWord (.sneReg x y)

end Sys2Proof.Machine
end

section
/-! SUPPORT. Register load, arithmetic, logic, shift and random: the byte results and flags as the numbers the rules
state, and the two writes of a flag-writing instruction in either order (spec/42_alu.md R130 to R143). -/

namespace Sys2Proof.Machine

/-! ### Results and flags as numbers (R131, R136 to R140) -/

/-- The sum of two bytes is the exact sum modulo 256 (R131, R136). -/
theorem byte_add_eq (a b : Byte) : a + b = BitVec.ofNat 8 ((a.toNat + b.toNat) % 256) := by
  simp [← BitVec.toNat_inj]

/-- The difference of two bytes is the exact difference modulo 256 (R137, R139). -/
theorem byte_sub_eq (a b : Byte) : a - b = BitVec.ofInt 8 (((a.toNat : Int) - b.toNat) % 256) := by
  simp only [← BitVec.toNat_inj, BitVec.toNat_sub, BitVec.toNat_ofInt]
  omega

/-- Halving a byte (R138). -/
theorem byte_shiftRight_one (a : Byte) : a >>> 1 = BitVec.ofNat 8 (a.toNat / 2) := by
  simp only [← BitVec.toNat_inj, BitVec.toNat_ushiftRight, Nat.shiftRight_eq_div_pow, BitVec.toNat_ofNat]
  omega

/-- Doubling a byte modulo 256 (R140). -/
theorem byte_shiftLeft_one (a : Byte) : a <<< 1 = BitVec.ofNat 8 (2 * a.toNat % 256) := by
  simp only [← BitVec.toNat_inj, BitVec.toNat_shiftLeft, Nat.shiftLeft_eq, BitVec.toNat_ofNat]
  omega

/-- The carry compares the exact sum (R136). -/
theorem carryFlag_eq (a b : Byte) :
    carryFlag a b = if a.toNat + b.toNat > 255 then 0x01#8 else 0x00#8 := by
  simp only [carryFlag, flagByte, decide_eq_true_eq]

/-- The flag of a difference compares the two numbers strictly (R137, R139). -/
theorem greaterFlag_eq (a b : Byte) :
    greaterFlag a b = if (a.toNat : Int) > b.toNat then 0x01#8 else 0x00#8 := by
  simp only [greaterFlag, flagByte, decide_eq_true_eq, gt_iff_lt, Int.ofNat_lt]

/-- Bit 0 of a byte is its remainder by 2 (R138). -/
theorem lowBitFlag_eq (a : Byte) : lowBitFlag a = BitVec.ofNat 8 (a.toNat % 2) := by
  have hbit := Nat.mod_two_eq_zero_or_one a.toNat
  rcases hbit with h | h <;> simp [lowBitFlag, flagByte, BitVec.getLsbD, Nat.testBit_zero, h]

/-- Bit 7 of a byte is its quotient by 128 (R140). -/
theorem highBitFlag_eq (a : Byte) : highBitFlag a = BitVec.ofNat 8 (a.toNat / 128) := by
  have hbit : a.toNat / 128 = 0 ∨ a.toNat / 128 = 1 := by omega
  rcases hbit with h | h <;> simp [highBitFlag, flagByte, BitVec.getLsbD, Nat.testBit_eq_decide_div_mod_eq, h]

/-! ### The two writes after the advance, in the order of `VF_WRITE_ORDER` (R137 to R140, R143) -/

/-- Under `as_listed` VF is written first, so the result remains for x = 15. -/
theorem State.advance_setFlagAndResult_asListed {s : State} (h : s.params.vfWriteOrder = .asListed) (x : Reg)
    (result flag : Byte) :
    s.advance.setFlagAndResult x result flag =
      { s with pc := s.pc + 2#16, v := (s.v.set 15 flag).set x.val result } :=
  (State.setFlagAndResult_asListed (s := s.advance) h x result flag).trans (s.advance.setFlagThenResult_eq x result flag)

/-- Under `flag_last` VF is written last, so the flag remains for x = 15. -/
theorem State.advance_setFlagAndResult_flagLast {s : State} (h : s.params.vfWriteOrder = .flagLast) (x : Reg)
    (result flag : Byte) :
    s.advance.setFlagAndResult x result flag =
      { s with pc := s.pc + 2#16, v := (s.v.set x.val result).set 15 flag } :=
  (State.setFlagAndResult_flagLast (s := s.advance) h x result flag).trans (s.advance.setResultThenFlag_eq x result flag)

/-! ### Loads and the immediate sum (R130 to R132) -/

/-- Settles O21: the byte sum of the meaning is the exact sum modulo 256, and each instruction writes `V[x]` alone. -/
theorem loadAndAddImmediate : Obligations.LoadAndAddImmediate := by
  intro s x y kk
  rw [← byte_add_eq]
  refine ⟨?_, ?_, ?_, rfl, rfl, rfl⟩
  · exact decodeWord_encodeWord (.ldImm x kk)
  · exact decodeWord_encodeWord (.addImm x kk)
  · exact decodeWord_encodeWord (.ldReg x y)

/-! ### Logic (R133 to R135) -/

/-- Settles O22: the meanings write the result first and the 0 of VF second. -/
theorem logicalOpsClearVf : Obligations.LogicalOpsClearVf := by
  refine fun s x y => ⟨?_, ?_, ?_, rfl, rfl, rfl⟩
  · exact decodeWord_encodeWord (.or x y)
  · exact decodeWord_encodeWord (.and x y)
  · exact decodeWord_encodeWord (.xor x y)

/-! ### Sum, difference and shift with their flag (R136 to R140, R143) -/

/-- Settles O23: the byte sum is the exact sum modulo 256, and the carry, written second, compares the exact sum. -/
theorem addSetsCarry : Obligations.AddSetsCarry := by
  intro s x y
  rw [← byte_add_eq, ← carryFlag_eq]
  exact ⟨decodeWord_encodeWord (.addReg x y), rfl⟩

/-- Settles O24: the differences and comparisons are those of the numbers, written in the order of the parameter. -/
theorem subtractSetsGreaterFlag : Obligations.SubtractSetsGreaterFlag := by
  intro s x y
  simp only [← byte_sub_eq, ← greaterFlag_eq]
  refine ⟨decodeWord_encodeWord (.sub x y), decodeWord_encodeWord (.subn x y), fun h => ⟨?_, ?_⟩, fun h => ⟨?_, ?_⟩⟩
  · exact congrArg Host.Outcome.next (State.advance_setFlagAndResult_asListed h x _ _)
  · exact congrArg Host.Outcome.next (State.advance_setFlagAndResult_asListed h x _ _)
  · exact congrArg Host.Outcome.next (State.advance_setFlagAndResult_flagLast h x _ _)
  · exact congrArg Host.Outcome.next (State.advance_setFlagAndResult_flagLast h x _ _)

/-- Settles O25: the shifts and the bits shifted out are those of the number, written in the order of the parameter. -/
theorem shiftSetsBitShiftedOut : Obligations.ShiftSetsBitShiftedOut := by
  intro s x y
  simp only [← byte_shiftRight_one, ← byte_shiftLeft_one, ← lowBitFlag_eq, ← highBitFlag_eq]
  refine ⟨decodeWord_encodeWord (.shr x y), decodeWord_encodeWord (.shl x y), fun h => ⟨?_, ?_⟩, fun h => ⟨?_, ?_⟩⟩
  · exact congrArg Host.Outcome.next (State.advance_setFlagAndResult_asListed h x _ _)
  · exact congrArg Host.Outcome.next (State.advance_setFlagAndResult_asListed h x _ _)
  · exact congrArg Host.Outcome.next (State.advance_setFlagAndResult_flagLast h x _ _)
  · exact congrArg Host.Outcome.next (State.advance_setFlagAndResult_flagLast h x _ _)

/-! ### The random byte (R141) -/

/-- Settles O26: the meaning draws the byte, counts the draw, and writes the byte under the mask. -/
theorem rndMasksFreeByte : Obligations.RndMasksFreeByte :=
  fun _ _ _ => rfl

end Sys2Proof.Machine
end

section
/-! SUPPORT. Index register and memory instructions: the sums and products the index register takes, the decimal digits
of a byte, and the bytes and registers of a span from `I` on (spec/43_index_memory.md R150 to R156). -/

namespace Sys2Proof.Machine

/-! ### The index register (R150 to R152) -/

/-- A byte added to a word is the exact sum modulo 65536 (R151). -/
theorem word_add_byteToWord_eq (w : Word) (b : Byte) :
    w + byteToWord b = BitVec.ofNat 16 ((w.toNat + b.toNat) % 65536) := by
  simp [← BitVec.toNat_inj, byteToWord]

/-- The address of a glyph is the exact product: five times a byte fits in a word (R152). -/
theorem toNat_glyphAddress (b : Byte) : (glyphAddress b).toNat = b.toNat * 5 := by
  have hb := b.isLt
  exact Nat.mod_eq_of_lt (by omega)

/-- Settles O27: the sum of the meaning is the exact sum modulo 65536, and each instruction writes `I` alone. -/
theorem indexLoadAndAdd : Obligations.IndexLoadAndAdd := by
  intro s nnn x
  rw [← absolute_eq, ← word_add_byteToWord_eq]
  exact ⟨decodeWord_encodeWord (.ldI nnn), decodeWord_encodeWord (.addI x), rfl, rfl⟩

/-- Settles O28: the meaning writes the glyph's address to `I` and nothing else. -/
theorem glyphAddressIsProduct : Obligations.GlyphAddressIsProduct :=
  fun s x => ⟨_, rfl, toNat_glyphAddress (s.reg x), rfl⟩

/-! ### Blocks of bytes, inside and outside -/

/-- Byte k of a block just written is read back k addresses on. -/
theorem Memory.read_writeBytes_add {m : Memory} (hwf : Memory.wf m = true) {a : Nat} {bytes : List Byte}
    (ha : a + bytes.length ≤ memSize) {k : Nat} (hk : k < bytes.length) :
    Memory.read (Memory.writeBytes m a bytes) (a + k) = bytes.getD k 0x00#8 := by
  rw [Memory.read_writeBytes hwf ha, if_pos (by omega), Nat.add_sub_cancel_left]

/-- A block write leaves every byte outside the block alone. -/
theorem Memory.read_writeBytes_outside {m : Memory} (hwf : Memory.wf m = true) {a : Nat} {bytes : List Byte}
    (ha : a + bytes.length ≤ memSize) {a' : Nat} (hout : a' < a ∨ a + bytes.length ≤ a') :
    Memory.read (Memory.writeBytes m a bytes) a' = Memory.read m a' := by
  rw [Memory.read_writeBytes hwf ha, if_neg (by omega)]

/-- Byte k of a block read, or the default past its end. -/
theorem Memory.getD_readBytes (m : Memory) (a n k : Nat) (b : Byte) :
    (Memory.readBytes m a n).getD k b = if k < n then Memory.read m (a + k) else b := by
  have hlen := Memory.length_readBytes m a n
  split
  · rw [List.getD_eq_getElem _ _ (by omega), Memory.getElem_readBytes]
  · exact List.getD_eq_default _ _ (by omega)

/-! ### `LD B, Vx` (R153, R156, R186) -/

/-- The digits of a byte as numbers, hundreds first: each fits in a byte (R153). -/
theorem toNat_getD_bcdDigits (b : Byte) :
    ((bcdDigits b).getD 0 0x00#8).toNat = b.toNat / 100 ∧
    ((bcdDigits b).getD 1 0x00#8).toNat = b.toNat / 10 % 10 ∧
    ((bcdDigits b).getD 2 0x00#8).toNat = b.toNat % 10 := by
  have hb := b.isLt
  refine ⟨Nat.mod_eq_of_lt ?_, Nat.mod_eq_of_lt ?_, Nat.mod_eq_of_lt ?_⟩ <;> omega

/-- Settles O29: the digits stand at their places of the stored block, and a block that does not fit is the fault. -/
theorem bcdStoresDigits : Obligations.BcdStoresDigits := by
  refine fun s x => ⟨fun hwf hspan => ?stored, fun hout => ?fault⟩
  case stored =>
    have hfits : s.idx.toNat + (bcdDigits (s.reg x)).length ≤ memSize := Nat.succ_le_succ hspan
    have hread {k : Nat} (hk : k < 3) := congrArg BitVec.toNat (Memory.read_writeBytes_add hwf hfits hk)
    obtain ⟨hhundreds, htens, hones⟩ := toNat_getD_bcdDigits (s.reg x)
    exact ⟨_, (execLdB_eq x s).trans (if_pos hfits), rfl, (hread (k := 0) (by decide)).trans hhundreds,
      (hread (by decide)).trans htens, (hread (by decide)).trans hones,
      fun _ ha => Memory.read_writeBytes_outside hwf hfits ha⟩
  case fault => exact (execLdB_eq x s).trans (if_neg (by unfold memSize; omega))

/-! ### `LD [I], Vx` (R154, R156, R186) -/

/-- Settles O30: each register stands at its place of the stored block, and a block that does not fit is the fault. -/
theorem storeRegistersWritesSpan : Obligations.StoreRegistersWritesSpan := by
  refine fun s x => ⟨fun hwf hspan => ?stored, fun hout => ?fault⟩
  case stored =>
    refine ⟨_, execStRegs_of_le hspan, rfl, fun k hk => State.read_writeBytes_regsUpTo hwf hspan hk, fun a ha => ?_⟩
    refine Memory.read_writeBytes_outside hwf ?_ ?_ <;> rw [State.length_regsUpTo]
    · exact Nat.succ_le_succ hspan
    · exact ha
  case fault => exact (execStRegs_eq x s).trans (if_neg (by unfold memSize; omega))

/-! ### `LD Vx, [I]` (R155, R156, R186) -/

/-- Settles O31: a register up to x takes its byte of the block read, and a block that does not fit is the fault. -/
theorem loadRegistersReadsSpan : Obligations.LoadRegistersReadsSpan := by
  refine fun s x => ⟨fun hspan => ?loaded, fun hout => ?fault⟩
  case loaded =>
    refine ⟨_, (execLdRegs_eq x s).trans (if_pos (Nat.succ_le_succ hspan)), rfl, fun k => ?_⟩
    rw [State.loadRegs_reg, Memory.getD_readBytes, State.advance_reg]
    simp only [Nat.lt_succ_iff, Fin.le_def]
  case fault => exact (execLdRegs_eq x s).trans (if_neg (by unfold memSize; omega))

end Sys2Proof.Machine
end

section
/-! SUPPORT. The display: what `DRW` does in either case of its rows, the pixels, flag and requests of a sprite whose
coordinates are fixed, and of one whose coordinate is read again from VF (spec/44_display.md R160 to R166). -/

namespace Sys2Proof.Machine

/-! ### One pixel and the whole display (R161, R162, R164) -/

/-- Settles O33: the answer of `SetPixel` is the old pixel, and only that pixel is toggled. -/
theorem setPixelToggles : Obligations.SetPixelToggles :=
  fun c x y => ⟨rfl, rfl, Frame.pixel_toggle c.fb y x⟩

/-- Settles O34: the frame buffer becomes the clear one, whose every pixel is clear. -/
theorem clsClearsDisplay : Obligations.ClsClearsDisplay :=
  ⟨decodeWord_encodeWord .cls, fun s => ⟨s.advance.clearDisplay, rfl, Frame.pixel_clear, rfl⟩⟩

/-! ### `DRW` in either case of its rows (R165, R182, R186) -/

/-- `DRW` whose rows are in memory, or which has none, draws on the advanced state. -/
theorem exec_drw_of_fits {s : State} {n : BitVec 4} (h : n = 0 ∨ s.idx.toNat + n.toNat ≤ 4096) (x y : Reg) :
    exec (.drw x y n) s = .next (s.advance.drawSprite x y (Memory.readBytes s.mem s.idx.toNat n.toNat)) :=
  (execDrw_eq x y n s).trans (if_pos (h.imp_left (congrArg BitVec.toNat)))

/-- The flag register after a write of VF. -/
theorem State.reg_flag_of_v {s : State} {v : Vector Byte 16} {b : Byte} (h : s.v = v.set 15 b) : s.reg 15 = b := by
  rw [State.reg_eq, h]
  exact Vector.getElem_set_self _

/-- Settles O35: drawing leaves VF at 0 or 1 and writes the canvas alone; rows outside memory are the fault. -/
theorem drawCompletesOrFaults : Obligations.DrawCompletesOrFaults := by
  refine fun s x y n => ⟨fun hfits => ?drawn, fun hn hout => ?fault⟩
  case drawn =>
    obtain ⟨c, hvf, hdraw⟩ := s.advance.drawSprite_eq x y (Memory.readBytes s.mem s.idx.toNat n.toNat)
    refine ⟨_, (exec_drw_of_fits hfits x y).trans (congrArg _ hdraw), ?_, ?_⟩
    · rwa [State.reg_flag_of_v rfl]
    · rw [State.reg_flag_of_v rfl]
      rfl
  case fault =>
    have hpos : n.toNat ≠ 0 := fun h => hn (BitVec.eq_of_toNat_eq h)
    exact (execDrw_eq x y n s).trans (if_neg (by unfold memSize; omega))

/-! ### A sprite of fixed coordinates (R161, R163, R165, R166) -/

/-- Coordinates are fixed under `sampled`, and under either parameter value when not in register 15 (R166, D6). -/
theorem State.coordinate_fixed {s : State} {x y : Reg}
    (h : s.params.drwVfOperand = .sampled ∨ (x ≠ 15 ∧ y ≠ 15)) :
    (∀ vf, s.coordinate x vf = (s.reg x).toNat) ∧ ∀ vf, s.coordinate y vf = (s.reg y).toNat := by
  rcases h with hsampled | ⟨hx, hy⟩
  · exact ⟨State.coordinate_sampled hsampled x, State.coordinate_sampled hsampled y⟩
  · exact ⟨State.coordinate_of_ne hx, State.coordinate_of_ne hy⟩

/-- A cell and the reduced coordinates it hits name one pixel (R161). -/
theorem Frame.pixel_of_hits {p : Nat × Nat} {row col : Nat} (h : hits p row col = true) (fb : Frame) :
    fb.pixel p.2 p.1 = fb.pixel row col := by
  obtain ⟨hrow, hcol⟩ := of_decide_eq_true h
  simp only [Frame.pixel, hrow, hcol]

/-- Plotting pairwise different cells with VF clear leaves VF at 1 exactly when one of them was set before (R165). -/
theorem Canvas.plotAll_vf_eq_one_iff {ps : List (Nat × Nat)} (h : Distinct ps) {c : Canvas} (hc : c.vf = 0x00#8) :
    (c.plotAll ps).vf = 1 ↔ ∃ p ∈ ps, c.fb.pixel p.2 p.1 = true := by
  rw [Canvas.plotAll_vf h, hc, ← List.any_eq_true]
  split <;> simp [*]

/-- Some cell of a sprite is a set pixel exactly when some pixel of the display is set and covered by a 1 bit. -/
theorem exists_pixel_spriteCells_iff (fb : Frame) (m : Memory) (base n px py : Nat) (hn : n ≤ 15) :
    (∃ p ∈ spriteCells px py 0 (Memory.readBytes m base n), fb.pixel p.2 p.1 = true) ↔
      ∃ row col, row < 32 ∧ col < 64 ∧ fb.pixel row col = true ∧ spriteBit m base n px py row col = true := by
  constructor
  · rintro ⟨p, hp, hset⟩
    have hhit : hits p (p.2 % 32) (p.1 % 64) = true := by simp [hits]
    have hrow : p.2 % 32 < 32 := Nat.mod_lt _ (by decide)
    have hcol : p.1 % 64 < 64 := Nat.mod_lt _ (by decide)
    refine ⟨_, _, hrow, hcol, Frame.pixel_of_hits hhit fb ▸ hset, ?_⟩
    rw [← any_hits_spriteCells m base n px py _ _ hn hrow hcol]
    exact List.any_eq_true.mpr ⟨p, hp, hhit⟩
  · rintro ⟨row, col, hrow, hcol, hset, hbit⟩
    rw [← any_hits_spriteCells m base n px py row col hn hrow hcol] at hbit
    obtain ⟨p, hp, hhit⟩ := List.any_eq_true.mp hbit
    exact ⟨p, hp, (Frame.pixel_of_hits hhit fb).trans hset⟩

/-- The cells of a sprite are its 1 bits, each moved to the coordinates of the sprite. -/
theorem Canvas.plotAll_spriteCells (c : Canvas) (m : Memory) (base n px py : Nat) :
    c.plotAll (spriteCells px py 0 (Memory.readBytes m base n)) =
      c.plotAll ((spriteOnes m base n).map fun bit => (px + bit.2, py + bit.1)) := by
  rw [← Canvas.plotRows_const, Canvas.plotRows_eq_ones, Canvas.plotAll, List.foldl_map]

/-- Settles O36: the canvas is that of the sprite's cells, which are pairwise different pixels. -/
theorem drawTogglesSpritePixels : Obligations.DrawTogglesSpritePixels := by
  intro s x y n hfixed hfits
  have hn : n.toNat ≤ 15 := Nat.le_of_lt_succ n.isLt
  obtain ⟨hx, hy⟩ := State.coordinate_fixed (s := s.advance) hfixed
  have hdistinct := distinct_spriteCells (s.reg x).toNat (s.reg y).toNat 0
    (Memory.readBytes s.mem s.idx.toNat n.toNat) (by rw [Memory.length_readBytes]; omega)
  refine ⟨_, (exec_drw_of_fits hfits x y).trans (congrArg _ (State.drawSprite_fixed _ _ hx hy _ _ rfl)),
    fun row col hrow hcol => ?pixels, ?flag, ?requests⟩
  case pixels =>
    rw [← any_hits_spriteCells _ _ _ _ _ row col hn hrow hcol]
    exact Canvas.plotAll_pixel hdistinct _ row col
  case flag =>
    rw [State.reg_flag_of_v rfl, ← exists_pixel_spriteCells_iff _ _ _ _ _ _ hn]
    exact Canvas.plotAll_vf_eq_one_iff hdistinct rfl
  case requests =>
    refine (congrArg Canvas.requests (Canvas.plotAll_spriteCells _ _ _ _ _ _)).trans ?_
    rw [Canvas.plotAll_requests, List.map_map]
    rfl

/-- Settles O38: the first draw keeps what the second reads, so the two toggle the same pixels, and a covered pixel is
set before the second draw exactly when it was clear before the first. -/
theorem drawTwiceRestores : Obligations.DrawTwiceRestores := by
  intro s t u x y n hx hy hfits hfirst hsecond
  obtain ⟨t', ht', hpixels, -, -⟩ := drawTogglesSpritePixels s x y n (.inr ⟨hx, hy⟩) hfits
  obtain rfl := Host.Outcome.next.inj (hfirst.symm.trans ht')
  obtain ⟨t', ht', -, hframe⟩ := (drawCompletesOrFaults s x y n).1 hfits
  obtain rfl := Host.Outcome.next.inj (hfirst.symm.trans ht')
  have hmem : t.mem = s.mem := by rw [hframe]
  have hidx : t.idx = s.idx := by rw [hframe]
  have hreg {r : Reg} (hr : r ≠ 15) : t.reg r = s.reg r := by
    rw [hframe]
    exact getElem_set_of_ne s.v hr _
  obtain ⟨u', hu', hpixels', hflag, -⟩ := drawTogglesSpritePixels t x y n (.inr ⟨hx, hy⟩) (hidx ▸ hfits)
  obtain rfl := Host.Outcome.next.inj (hsecond.symm.trans hu')
  rw [hmem, hidx, hreg hx, hreg hy] at hpixels' hflag
  refine ⟨Frame.ext_pixel fun row col hrow hcol => ?restored, hflag.trans ?collides⟩
  case restored =>
    rw [hpixels' row col hrow hcol, hpixels row col hrow hcol, Bool.xor_assoc, Bool.xor_self, Bool.xor_false]
  case collides =>
    refine exists_congr fun row => exists_congr fun col => and_congr_right fun hrow => and_congr_right fun hcol =>
      and_congr_left fun hbit => ?_
    rw [hpixels row col hrow hcol, hbit, Bool.xor_true, Bool.not_eq_true']

/-! ### A coordinate read again from VF (R166, D6) -/

/-- Under `live` a coordinate named by register 15 is the current VF (R166, D6). -/
theorem State.coordinate_live {s : State} (h : s.params.drwVfOperand = .live) (r : Reg) (vf : Byte) :
    s.coordinate r vf = if r = 15 then vf.toNat else (s.reg r).toNat := by
  rw [State.coordinate, h]
  rfl

/-- The canvas of 1 bits plotted in order from a cleared VF, a coordinate named by register 15 being the VF that the
bits before have left (R165, R166, D6). -/
def State.liveCanvas (s : State) (x y : Reg) (bits : List (Nat × Nat)) : Canvas :=
  bits.foldl
    (fun c bit => c.plot ((if x = 15 then c.vf.toNat else (s.reg x).toNat) + bit.2)
      ((if y = 15 then c.vf.toNat else (s.reg y).toNat) + bit.1))
    { fb := s.fb, vf := 0x00#8, requests := s.requests }

/-- `DRW` under `live`, in full: the canvas of the sprite's 1 bits, and nothing else but the program counter. -/
theorem exec_drw_live {s : State} {n : BitVec 4} (hlive : s.params.drwVfOperand = .live)
    (hfits : n = 0 ∨ s.idx.toNat + n.toNat ≤ 4096) (x y : Reg) :
    exec (.drw x y n) s = .next { s with
      pc := s.pc + 2#16
      v := s.v.set 15 (s.liveCanvas x y (spriteOnes s.mem s.idx.toNat n.toNat)).vf
      fb := (s.liveCanvas x y (spriteOnes s.mem s.idx.toNat n.toNat)).fb
      requests := (s.liveCanvas x y (spriteOnes s.mem s.idx.toNat n.toNat)).requests } := by
  have hcoord (r : Reg) := funext (State.coordinate_live (s := s.advance) hlive r)
  rw [exec_drw_of_fits hfits, State.drawSprite, hcoord, hcoord, Canvas.plotRows_eq_ones]
  rfl

/-- The 1 bits of the one-row sprite 0xC0 are its two leftmost (R166, D5). -/
theorem spriteOnes_of_read_C0 {m : Memory} {base : Nat} (h : Memory.read m base = 0xC0#8) :
    spriteOnes m base 1 = [(0, 0), (0, 1)] := by
  simp only [spriteOnes, List.range_one, List.flatMap_singleton, Nat.add_zero, h]
  decide

/-- The column of the second of two neighbouring bits of `DRW VF, Vy` under `live`: one to the right of the VF that the
first, at column 0, has left (R166, D6). -/
def Frame.secondColumn (fb : Frame) (top : Nat) : Nat := if fb.pixel top 0 then 2 else 1

/-- The second cell does not wrap. -/
theorem Frame.secondColumn_mod (fb : Frame) (top : Nat) : fb.secondColumn top % 64 = fb.secondColumn top := by
  unfold Frame.secondColumn
  split <;> rfl

/-- The second cell is not in the column of the first. -/
theorem Frame.secondColumn_ne_zero (fb : Frame) (top : Nat) : fb.secondColumn top ≠ 0 := by
  unfold Frame.secondColumn
  split <;> decide

/-- Two neighbouring 1 bits under `DRW VF, Vy`: column 0, and then the column after the VF the first has left. -/
theorem State.liveCanvas_pair (s : State) {y : Reg} (hy : y ≠ 15) :
    s.liveCanvas 15 y [(0, 0), (0, 1)] =
      Canvas.plotAll { fb := s.fb, vf := 0x00#8, requests := s.requests }
        [(0, (s.reg y).toNat), (s.fb.secondColumn (s.reg y).toNat, (s.reg y).toNat)] := by
  have hsecond : (if s.fb.pixel (s.reg y).toNat 0 then 0x01#8 else 0x00#8).toNat + 1 =
      s.fb.secondColumn (s.reg y).toNat := by
    unfold Frame.secondColumn
    split <;> rfl
  simp only [State.liveCanvas, List.foldl_cons, List.foldl_nil, if_neg hy, ← hsecond]
  rfl

/-- The pixels two cells of one row hit. -/
theorem any_hits_pair (a b top row col : Nat) :
    ([(a, top), (b, top)].any fun p => hits p row col) =
      decide (row % 32 = top % 32 ∧ (col % 64 = a % 64 ∨ col % 64 = b % 64)) := by
  simp [hits, and_or_left]

/-- Settles O37: the rows are drawn bit by bit at the coordinates of the moment; of the row 0xC0 that makes two
different cells, the second in the column after the VF the first has left. -/
theorem drawLiveRereadsFlag : Obligations.DrawLiveRereadsFlag := by
  refine ⟨fun s x y n hlive hfits => exec_drw_live hlive hfits x y, fun s y hlive hy hidx hread => ?_⟩
  have hexec := exec_drw_live (n := 1#4) hlive (.inr (Nat.succ_le_succ hidx)) 15 y
  rw [show (1#4).toNat = 1 from rfl, spriteOnes_of_read_C0 hread, s.liveCanvas_pair hy] at hexec
  have hdistinct : Distinct [(0, (s.reg y).toNat), (s.fb.secondColumn (s.reg y).toNat, (s.reg y).toNat)] := by
    simp [Distinct, hits, Frame.secondColumn_mod, Frame.secondColumn_ne_zero]
  refine ⟨_, hexec, fun row col => ?pixels, ?flag⟩
  case pixels =>
    refine (Canvas.plotAll_pixel hdistinct _ row col).trans (congrArg _ ?_)
    rw [any_hits_pair, Frame.secondColumn_mod]
    rfl
  case flag =>
    rw [State.reg_flag_of_v rfl]
    refine (Canvas.plotAll_vf_eq_one_iff hdistinct rfl).trans ?_
    simp only [List.mem_cons, List.not_mem_nil, or_false, exists_eq_or_imp, exists_eq_left]
    rfl

end Sys2Proof.Machine
end

section
/-! SUPPORT. Keys and timers: the level the key skips sample, the timer loads, and the wait for a key
(spec/45_keys_timers.md R170 to R176, spec/40_execution_cycle.md R101). -/

namespace Sys2Proof.Machine

/-! ### The key skips (R170, R171, R174) -/

/-- The sampled level is the level of a key with that code; there is none above 15 (R174, D10). -/
theorem State.keyDownNow_eq (s : State) (b : Byte) :
    s.keyDownNow b = decide (∃ k : Key, b.toNat = k.val ∧ s.keys[k.val] = true) := by
  by_cases hb : b.toNat < 16
  case pos =>
    have hlevel : s.keyDownNow b = s.keys[b.toNat] := by simp [State.keyDownNow, hb]
    rw [hlevel, Bool.eq_iff_iff, decide_eq_true_iff]
    exact ⟨fun hdown => ⟨⟨b.toNat, hb⟩, rfl, hdown⟩, fun ⟨k, hk, hdown⟩ => by simpa only [hk] using hdown⟩
  case neg =>
    have hlevel : s.keyDownNow b = false := by simp [State.keyDownNow, hb]
    rw [hlevel, eq_comm, decide_eq_false_iff_not]
    exact fun ⟨k, hk, _⟩ => hb (hk ▸ k.isLt)

/-- Settles O39: the two skips follow the sampled level, which is that of the key the whole byte names. -/
theorem keySkipsSampleKey : Obligations.KeySkipsSampleKey := by
  intro s x
  have hlevel := s.keyDownNow_eq (s.reg x)
  simp only [decide_eq_true_eq]
  exact ⟨exec_skip (congrArg some hlevel), exec_skip_not (congrArg some (by rw [hlevel, decide_not]))⟩

/-! ### The timers (R172, R175, R176) -/

/-- Settles O40: the three words decode by their format, and each meaning moves one byte and makes no request. -/
theorem timerLoads : Obligations.TimerLoads := by
  refine fun s x => ⟨?_, ?_, ?_, rfl, rfl, rfl⟩
  · exact decodeWord_encodeWord (.ldVxDT x)
  · exact decodeWord_encodeWord (.ldDTVx x)
  · exact decodeWord_encodeWord (.ldSTVx x)

/-! ### The wait for a key (R101, R173) -/

/-- Settles O41: the instruction sets the wait alone, and a release during a wait loads the code of its key. -/
theorem keyWaitLoadsReleasedKey : Obligations.KeyWaitLoadsReleasedKey :=
  fun s x k => ⟨decodeWord_encodeWord (.ldVxK x), rfl,
    fun hf => State.keyRelease_of_waiting (s := s.waitForKey x) hf rfl k⟩

end Sys2Proof.Machine
end

section
/-! SUPPORT. Precise faults: only a step slot sets the latch, and it then does nothing of its instruction and ends the
`Tick` in flight (spec/60_exceptions.md R185, R186, spec/40_execution_cycle.md R100). -/

namespace Sys2Proof.Machine

/-! ### The steps that leave the latch as it was -/

@[simp] theorem State.closeSlot_fault (s : State) : s.closeSlot.fault = s.fault := by
  rw [State.closeSlot_eq]
  split <;> rfl

@[simp] theorem State.closeBatch_fault (s : State) : s.closeBatch.fault = s.fault := by
  rw [State.closeBatch_eq]

@[simp] theorem State.startTick_fault (s : State) : s.startTick.fault = s.fault := by
  rw [State.startTick_eq]
  split <;> rfl

@[simp] theorem State.keyRelease_fault (s : State) (k : Key) : (s.keyRelease k).fault = s.fault := by
  rcases s.keyRelease_cases k with ⟨_, r, _, h⟩ | h
  · rw [h, State.setReg_fault]
  · rw [h]

/-- A key going up keeps the latch. -/
theorem State.keyUp_fault {s t : State} {k : Key} (h : s.keyUp k = .next t) : t.fault = s.fault := by
  obtain ⟨_, rfl⟩ := State.keyUp_next h
  exact State.keyRelease_fault _ k

/-- A load raises no fault: it resets the latch or is answered that the image is too large (R200, R201). -/
theorem State.load_fault_of_none {s : State} (hf : s.fault = none) (image : List Byte) :
    (s.load image).fault = none := by
  rcases s.load_cases image with ⟨_, h⟩ | ⟨_, h⟩ <;> rw [h]
  · rfl
  · exact hf

/-! ### The step that sets the latch (R100, R185, R186) -/

/-- A step slot that sets the latch changes nothing else. -/
theorem stepSlot_eq_raise {s t : State} (hf : s.fault = none) (h : stepSlot s = .next t) (ht : t.fault ≠ none) :
    ∃ c, t = s.raise c := by
  cases hw : s.wait with
  | some r =>
    obtain rfl := Host.Outcome.next.inj ((stepSlot_of_some hw).symm.trans h)
    exact absurd hf ht
  | none =>
    have hstep := (stepSlot_of_none hw).symm.trans h
    rcases instructionStep_cases s with ⟨u, hu, hkept⟩ | ⟨c, hc, _⟩
    · obtain rfl := Host.Outcome.next.inj (hu.symm.trans hstep)
      exact absurd (hkept.trans hf) ht
    · exact ⟨c, Host.Outcome.next.inj (hstep.symm.trans hc)⟩

/-- A step of the core that sets the latch ends the `Tick` in flight and changes nothing else. -/
theorem coreStep_of_sets_fault {s t : State} (hf : s.fault = none) (h : coreStep s = .next t) (ht : t.fault ≠ none) :
    t = { s with fault := t.fault, batch := none } := by
  rcases coreStep_cases h with ⟨_, rfl⟩ | ⟨_, _, _, _, u, hu, rfl⟩ | ⟨_, _, _, _, rfl⟩
  · exact absurd hf ht
  · obtain ⟨c, rfl⟩ := stepSlot_eq_raise hf hu (u.closeSlot_fault ▸ ht)
    rfl
  · exact absurd (s.closeBatch_fault.trans hf) ht

/-- Settles O46, by the moves a step can be: the core's, and those of the environment, none of which sets the latch. -/
theorem faultsArePrecise : Obligations.FaultsArePrecise := by
  intro s t hf h ht
  rcases step_cases h with ⟨rest, hn, hcore⟩ | ⟨rest, _, _, rfl⟩ | ⟨k, rest, _, rfl⟩ | ⟨k, rest, _, hup⟩ |
    ⟨image, rest, _, rfl⟩
  · exact ⟨rest, hn, coreStep_of_sets_fault (s := { s with schedule := rest }) hf hcore ht⟩
  · exact absurd ((State.startTick_fault { s with schedule := rest }).trans hf) ht
  · exact absurd hf ht
  · exact absurd ((State.keyUp_fault hup).trans hf) ht
  · exact absurd (State.load_fault_of_none (s := { s with schedule := rest }) hf image) ht

end Sys2Proof.Machine
end

section
/-! SUPPORT. The answer of a load and the memory it leaves, and the finished program, whose step is its jump to itself
(spec/70_reset_and_hazards.md R201 to R203, R212). -/

namespace Sys2Proof.Machine

/-! ### The answer of a load (R184, R201) -/

/-- A load of an image that does not fit leaves only its answer. -/
theorem State.load_of_tooLarge {image : List Byte} (h : maxProgram < image.length) (s : State) :
    s.load image = { s with requests := .programTooLarge image.length :: s.requests } :=
  (s.load_cases image).elim (fun ⟨hfits, _⟩ => absurd hfits (Nat.not_le_of_lt h)) And.right

/-- Settles O50, by the two cases of the size check. -/
theorem loadChecksSize : Obligations.LoadChecksSize :=
  fun s _ => ⟨fun hlarge => State.load_of_tooLarge hlarge s,
    fun hfits => congrArg State.requests (State.load_of_fits hfits s)⟩

/-! ### The memory after a load (R58, R202, R203) -/

/-- Settles O51: the load leaves the memory of the image, which is the image written over the reset contents. -/
theorem loadPlacesImage : Obligations.LoadPlacesImage := by
  intro s image hfits a
  have hmem : (s.load image).mem = Memory.ofImage image := congrArg State.mem (State.load_of_fits hfits s)
  exact hmem ▸ Memory.read_ofImage hfits a

/-! ### A finished program (R111, R212) -/

/-- The instruction step at a word that the fetch answers and that decodes (R91, R92). -/
theorem instructionStep_of_fetch {s : State} {op : Word} {i : Instr} (hfetch : s.fetch = .ok op)
    (hdec : decodeWord op = some i) : instructionStep s = exec i s := by
  simp only [instructionStep, hfetch, runWord, hdec]

/-- A jump to the address it stands at changes nothing. -/
theorem exec_jp_self {s : State} {nnn : Addr12} (hpc : s.pc = absolute nnn) : exec (.jp nnn) s = .next s := by
  have hjump : exec (.jp nnn) s = .next (s.setPc (absolute nnn)) := rfl
  rw [hjump, ← hpc]
  rfl

/-- The step slot of a finished program gives the state itself. -/
theorem State.Finished.stepSlot {s : State} (h : s.Finished) : stepSlot s = .next s := by
  obtain ⟨hwait, -, nnn, hfetch, hpc⟩ := h
  calc Machine.stepSlot s
    _ = instructionStep s := stepSlot_of_none hwait
    _ = exec (.jp nnn) s := instructionStep_of_fetch hfetch (decodeWord_encodeWord (.jp nnn))
    _ = .next s := exec_jp_self hpc

/-- Whether the program has finished does not depend on what is scheduled. -/
theorem State.Finished.withSchedule {s : State} (h : s.Finished) (rest : List Move) :
    State.Finished { s with schedule := rest } := h

/-- Settles O20: the slot gives the state itself, with no fault latched, and is counted. -/
theorem finishedStaysFinished : Obligations.FinishedStaysFinished := by
  intro s used rest hfin hat
  have hstep := step_of_atSlot_next hat (hfin.withSchedule rest).stepSlot
  obtain ⟨-, hf, -⟩ := hfin
  exact hstep.trans (congrArg _ (if_pos hf))

end Sys2Proof.Machine
end
